-- ==== Sys2Proof/Word.lean ====
section
/-!
DEFINITION. The words the block holds and the port carries.

Every value of the block is an unsigned bit vector of fixed width (45_arithmetic R92): 2 bits (an index), 6 bits
(a position), 8 bits (a plane byte or a command word), 16 bits (PVALID), 32 bits (a colour or FVAL); a register
number has 7 bits (20_memory R30).
-/

namespace Sys2Proof

/-- A colour packed as {R, G, B, A}, R in bits 31:24 (20_memory R34). -/
abbrev Color := BitVec 32

/-- A quantized index, 0 to 3 (00_scope R4). -/
abbrev Index := BitVec 2

/-- One byte of a tile in planar form (10_state R14). -/
abbrev PlaneByte := BitVec 8

/-- A position in a tile, p = 8*row + col (30_encoding R54). -/
abbrev Pos := BitVec 6

/-- A register number, 0x00 to 0x7F (20_memory R30). -/
abbrev RegNum := BitVec 7

/-- A command word (30_encoding R50). -/
abbrev CmdWord := BitVec 8

/-- The data lane of the port, as wide as the widest register (20_memory R32; notes/assumptions/6.md). -/
abbrev PortWord := BitVec 32

/-- The palette look-up table: four colours, the position is the index (00_scope R5, 10_state R11). -/
abbrev Palette := Vector Color 4

/-- One tile of quantized indices in row-major order (10_state R13). -/
abbrev Tile := Vector Index 64

/-- One tile in planar form, sixteen bytes (00_scope R7, 10_state R14). -/
abbrev Planar := Vector PlaneByte 16

end Sys2Proof
end

