-- ==== Sys2Proof/Config.lean ====
section
/-!
DEFINITION. The parameters of the block (00_scope section 4) and the two open parameters of the host side.

Every parameter of the block is fixed by the spec (00_scope R3 to R8). The two host-side parameters the spec leaves
OPEN are opaque: no proof can see a value of them (notes/assumptions/10.md and 11.md).
-/

namespace Sys2Proof

/-- Width of a tile in pixels (00_scope R3). -/
def Config.tileW : Nat := 8

/-- Height of a tile in pixels (00_scope R3). -/
def Config.tileH : Nat := 8

/-- Cells of a tile (00_scope R3). -/
def Config.nIdx : Nat := Config.tileW * Config.tileH

/-- Bits of an index (00_scope R4). -/
def Config.bpp : Nat := 2

/-- Entries of the palette (00_scope R5). -/
def Config.palN : Nat := 4

/-- Bytes of a tile in planar form (00_scope R7). -/
def Config.tileBytes : Nat := Config.tileH * Config.bpp

/-- The frame in which a host reports the pixel of an UnsupportedColor fault (92 D21). -/
inductive CoordFrame where
  | padded
  | source
  deriving DecidableEq, Repr, Inhabited

/-- The form in which a host reports the pixel of an UnsupportedColor fault (92 D21). -/
inductive CoordForm where
  | xy
  | rowColumn
  deriving DecidableEq, Repr, Inhabited

/-- What `COORD_ORIGIN` settles: a frame and a form (92 D21, the table of open parameters). It has no choice of a zero
or one base: coordinates count from 0 (notes/assumptions/19.md). -/
structure CoordOrigin where
  frame : CoordFrame
  form : CoordForm
  deriving DecidableEq, Repr, Inhabited

/-- `COORD_ORIGIN` (00_scope R8, 48_host_procedures R124): OPEN, host side only. -/
opaque Config.coordOrigin : CoordOrigin

/-- `DIM_INFER(tile_count, width_hint, height_hint)` (00_scope R8, 48_host_procedures R116): OPEN, host side only.
`none` says that the dimensions are not resolvable. -/
opaque Config.dimInfer : Nat → Option Int → Option Int → Option (Int × Int)

end Sys2Proof
end

