-- ==== Sys2Proof/Machine/Operands.lean ====
section
/-!
DEFINITION. The operand forms: a register number (20_memory R32), a position in a tile (30_encoding R54), and the
channels of a colour (20_memory R34).
-/

namespace Sys2Proof.Machine

/-- The assigned registers of the register map, by name (20_memory R32). -/
inductive Reg where
  | cmd
  | fcause
  | fval
  | fpos
  | pvalid
  | color
  | pal (j : BitVec 2)
  | pln (j : BitVec 4)
  | idx (p : Pos)
  deriving DecidableEq, Repr

/-- The register a number names; `none` for a reserved number (20_memory R32, R45). -/
def regOfNum (rn : RegNum) : Option Reg :=
  let n := rn.toNat
  if n = 0x00 then some .cmd
  else if n = 0x01 then some .fcause
  else if n = 0x02 then some .fval
  else if n = 0x03 then some .fpos
  else if n = 0x04 then some .pvalid
  else if n = 0x05 then some .color
  else if 0x08 ≤ n ∧ n ≤ 0x0B then some (.pal (BitVec.ofNat 2 (n - 0x08)))
  else if 0x10 ≤ n ∧ n ≤ 0x1F then some (.pln (BitVec.ofNat 4 (n - 0x10)))
  else if 0x40 ≤ n then some (.idx (BitVec.ofNat 6 (n - 0x40)))
  else none

/-- The number of a register (20_memory R32). -/
def numOfReg : Reg → RegNum
  | .cmd => 0x00#7
  | .fcause => 0x01#7
  | .fval => 0x02#7
  | .fpos => 0x03#7
  | .pvalid => 0x04#7
  | .color => 0x05#7
  | .pal j => 0x08#7 + j.setWidth 7
  | .pln j => 0x10#7 + j.setWidth 7
  | .idx p => 0x40#7 + p.setWidth 7

/-- The width of a register in bits (20_memory R32, R33). -/
def regWidth : Reg → Nat
  | .cmd => 8
  | .fcause => 2
  | .fval => 32
  | .fpos => 6
  | .pvalid => 16
  | .color => 32
  | .pal _ => 32
  | .pln _ => 8
  | .idx _ => 2

/-- A value on the data lane fits the register's width (20_memory R33). -/
def fitsReg (r : Reg) (v : PortWord) : Bool := decide (v.toNat < 2 ^ regWidth r)

/-- `row = w[5:3] = p div 8`, 0 the top row (30_encoding R54). -/
def posRow (p : Pos) : BitVec 3 := p.extractLsb' 3 3

/-- `col = w[2:0] = p mod 8`, 0 the leftmost column (30_encoding R54). -/
def posCol (p : Pos) : BitVec 3 := p.extractLsb' 0 3

/-- `p = 8*row + col` (30_encoding R54). -/
def posOf (row col : BitVec 3) : Pos := row ++ col

/-- A colour from its channels, `{R, G, B, A}` (20_memory R34). -/
def colorOf (r g b a : BitVec 8) : Color := r ++ g ++ b ++ a

/-- The channels (R, G, B, A) of a colour (20_memory R34, 48_host_procedures R124). -/
def channelsOf (c : Color) : BitVec 8 × BitVec 8 × BitVec 8 × BitVec 8 :=
  (c.extractLsb' 24 8, c.extractLsb' 16 8, c.extractLsb' 8 8, c.extractLsb' 0 8)

end Sys2Proof.Machine
end

