-- ==== Sys2Proof/Syntax.lean ====
section
/-!
DEFINITION. The instructions: one constructor per row of spec/opcode_table.json.

A COMMAND (`pack` to `deq`) stands for its delivery by a WR to CMD (30_encoding section 1, R58); `rd` and `wr` are the
two port accesses. `wr` with register number 0 delivers any command word, a reserved one included (40 R65).
-/

namespace Sys2Proof

/-- The instructions of the command set G2B-1 and the two port accesses (30_encoding R53, R55). -/
inductive Instr where
  /-- PACK: the tile in IDX into PLN (42_packer R80). -/
  | pack
  /-- UNPACK: the tile in PLN into IDX (43_unpacker R85). -/
  | unpack
  /-- SRST: soft reset (44_system R90). -/
  | srst
  /-- QUANT p: the colour in COLOR into cell p (41_quantizer R70). -/
  | quant (p : Pos)
  /-- QPAD p: mark cell p as padding (41_quantizer R71). -/
  | qpad (p : Pos)
  /-- DEQ p: the colour of cell p into COLOR (41_quantizer R72). -/
  | deq (p : Pos)
  /-- RD rn: host read of register number rn (40_register_access R67). -/
  | rd (rn : RegNum)
  /-- WR rn, v: host write of v to register number rn (40_register_access R60). -/
  | wr (rn : RegNum) (v : PortWord)
  deriving DecidableEq, Repr

end Sys2Proof
end

