-- ==== Sys2Proof/WellFormed.lean ====
section
/-!
DEFINITION. Which instructions a host may issue (48_host_procedures R126): an access names an assigned register
number, and a write carries a value of exactly the register's width (20_memory R33, R45; 93 U1, U6).
-/

namespace Sys2Proof

/-- The well-formedness check, one line per constructor. Every position of a command is legal (30_encoding R54). -/
def Instr.wellFormed : Instr → Bool
  | .pack => true
  | .unpack => true
  | .srst => true
  | .quant _ => true
  | .qpad _ => true
  | .deq _ => true
  | .rd rn => (Machine.regOfNum rn).isSome
  | .wr rn v => (Machine.regOfNum rn).any (Machine.fitsReg · v)

/-- An instruction a host may issue (48_host_procedures R126, R128). -/
abbrev WellFormed (i : Instr) : Prop := i.wellFormed = true

end Sys2Proof
end

