-- ==== Sys2Proof/Decode.lean ====
section
/-!
DEFINITION. Decoding: a command word (30_encoding R55), a port access (30_encoding R53, R58; 40 R60, R65, R67), and
the encoders of both.

The port carries direction, register number and data as separate items (30_encoding R53), so what the block decodes is
an `Access`; inside a write to CMD it decodes the eight bits of the command word.
-/

namespace Sys2Proof

/-- One access on the register port: direction, register number and, for a write, data (30_encoding R53). -/
inductive Access where
  | read (rn : RegNum)
  | write (rn : RegNum) (v : PortWord)
  deriving DecidableEq, Repr

/-- Why eight bits are no command. -/
inductive CommandError where
  /-- A command word that selects no row of the opcode map (30_encoding R56). -/
  | reservedWord (w : CmdWord)
  deriving DecidableEq, Repr

/-- Why an access is no instruction. -/
inductive DecodeError where
  /-- A register number the map leaves reserved (20_memory R45). -/
  | reservedRegister (rn : RegNum)
  /-- A value wider than the register (20_memory R33, 93 U6). -/
  | valueTooWide (rn : RegNum) (v : PortWord)
  deriving DecidableEq, Repr

/-- The command a word selects, row by row of the opcode map (30_encoding R51, R52, R54, R55); a word that selects no
row is reserved (R56). -/
def decodeCommand (w : CmdWord) : Except CommandError Instr :=
  if w = 0x01#8 then .ok .pack
  else if w = 0x02#8 then .ok .unpack
  else if w = 0x3F#8 then .ok .srst
  else if w.extractLsb' 6 2 = 0b01#2 then .ok (.quant (w.extractLsb' 0 6))
  else if w.extractLsb' 6 2 = 0b10#2 then .ok (.qpad (w.extractLsb' 0 6))
  else if w.extractLsb' 6 2 = 0b11#2 then .ok (.deq (w.extractLsb' 0 6))
  else .error (.reservedWord w)

/-- The data of a WR to CMD as a command word: its low eight bits, the width of CMD (20_memory R32, R33). -/
def cmdWordOf (v : PortWord) : CmdWord := v.setWidth 8

/-- The instruction an access issues. A WR to CMD of a defined command word is that command (40 R65, 30_encoding R58;
notes/assumptions/8.md); of a reserved word it stays a WR, whose meaning raises IllegalCommand. -/
def decode : Access → Except DecodeError Instr
  | .read rn =>
    match Machine.regOfNum rn with
    | none => .error (.reservedRegister rn)
    | some _ => .ok (.rd rn)
  | .write rn v =>
    match Machine.regOfNum rn with
    | none => .error (.reservedRegister rn)
    | some r =>
      if Machine.fitsReg r v then
        if r = .cmd then
          match decodeCommand (cmdWordOf v) with
          | .ok i => .ok i
          | .error _ => .ok (.wr rn v)
        else .ok (.wr rn v)
      else .error (.valueTooWide rn v)

/-- The command word of a command (30_encoding R55); `none` for the two port accesses. -/
def encodeCommand : Instr → Option CmdWord
  | .pack => some 0x01#8
  | .unpack => some 0x02#8
  | .srst => some 0x3F#8
  | .quant p => some (0b01#2 ++ p)
  | .qpad p => some (0b10#2 ++ p)
  | .deq p => some (0b11#2 ++ p)
  | .rd _ => none
  | .wr _ _ => none

/-- A WR to CMD with a command word as its data (30_encoding R58). -/
def commandAccess (w : CmdWord) : Access := .write 0x00#7 (w.setWidth 32)

/-- The access that issues an instruction, as the assembler's table lists it (30_encoding R58). -/
def encode : Instr → Access
  | .pack => commandAccess 0x01#8
  | .unpack => commandAccess 0x02#8
  | .srst => commandAccess 0x3F#8
  | .quant p => commandAccess (0b01#2 ++ p)
  | .qpad p => commandAccess (0b10#2 ++ p)
  | .deq p => commandAccess (0b11#2 ++ p)
  | .rd rn => .read rn
  | .wr rn v => .write rn v

/-- The command a WR to CMD delivers, when the instruction is such a WR and its word is a defined one. -/
def deliveredCommand : Instr → Option Instr
  | .wr rn v => if rn = 0x00#7 then (decodeCommand (cmdWordOf v)).toOption else none
  | _ => none

/-- The instruction under its own name: a WR to CMD of a defined command word is that command. -/
def canonicalInstr (i : Instr) : Instr := (deliveredCommand i).getD i

/-- The descriptor byte `{d, rn}` of an access, d = 1 for WR (30_encoding R53). -/
def descriptorOf : Access → BitVec 8
  | .read rn => 0b0#1 ++ rn
  | .write rn _ => 0b1#1 ++ rn

/-- The access a descriptor byte and the data after it spell (30_encoding R53). -/
def accessOf (d : BitVec 8) (v : PortWord) : Access :=
  if d.getLsbD 7 then .write (d.extractLsb' 0 7) v else .read (d.extractLsb' 0 7)

/-- The access a word of the opcode table stands for. The table's two spaces overlap in eight bits: a word is read as a
command word where one is defined, else as a descriptor byte with data zero; a longer word is a descriptor byte with
its data above it (notes/assumptions/7.md). -/
def tableAccess (nbits w : Nat) : Access :=
  if nbits ≤ 8 then
    match decodeCommand (BitVec.ofNat 8 w) with
    | .ok _ => commandAccess (BitVec.ofNat 8 w)
    | .error _ => accessOf (BitVec.ofNat 8 w) 0#32
  else accessOf (BitVec.ofNat 8 w) (BitVec.ofNat 32 (w / 256))

/-- The instruction the decoder reads from a word of the opcode table; `none` where it refuses, and for bits beyond the
widest access (eight bits of descriptor and thirty-two of data). -/
def decodeTableWord (nbits w : Nat) : Option Instr :=
  if nbits ≤ 40 ∧ w < 2 ^ nbits then (decode (tableAccess nbits w)).toOption else none

end Sys2Proof
end

