-- ==== Sys2Proof/Machine/State.lean ====
section
/-!
DEFINITION. The state: the block's eight items (10_state R10, 472 bits) and the host's side of the register port.

`Block` is everything the spec gives the machine. `State` adds two fields of the MODEL'S OWN: what the host has yet to
issue (`port`) and what its reads have returned (`returned`); no rule of the block reads either
(notes/assumptions/1.md, 2.md).
-/

namespace Sys2Proof.Machine

/-- The complete architectural state of the block (10_state R10). -/
structure Block where
  /-- PAL[0..3], the palette look-up table (R11). -/
  pal : Palette
  /-- COLOR, quantizer input and lookup output (R12). -/
  color : Color
  /-- IDX[0..63], one tile of indices (R13). -/
  idx : Tile
  /-- PLN[0..15], one tile in planar form (R14). -/
  pln : Planar
  /-- PVALID, which PLN bytes have been supplied (R15). -/
  pvalid : BitVec 16
  /-- FCAUSE, the fault cause, 0 when none (R16). -/
  fcause : BitVec 2
  /-- FVAL, the fault value (R17). -/
  fval : BitVec 32
  /-- FPOS, the fault position (R18). -/
  fpos : BitVec 6
  deriving DecidableEq, Repr

/-- Every register at its reset value (10_state R23). -/
def Block.reset : Block where
  pal := #v[0xFFFFFFFF#32, 0xAAAAAAFF#32, 0x555555FF#32, 0x000000FF#32]
  color := 0x00000000#32
  idx := Vector.replicate 64 0#2
  pln := Vector.replicate 16 0x00#8
  pvalid := 0x0000#16
  fcause := 0#2
  fval := 0x00000000#32
  fpos := 0#6

/-- What can happen to the block next: one access on its port (20_memory R40), or the assertion of its reset input
(70_reset_and_hazards R150). -/
inductive HostEvent where
  | access (a : Access)
  | resetInput
  deriving DecidableEq, Repr

/-- What an RD returned: the register's width and its value, zero above that width (40 R67, 20_memory R33). -/
structure ReadValue where
  width : Nat
  value : PortWord
  deriving DecidableEq, Repr

/-- The block with the host's side of its port. -/
structure State where
  /-- The block itself. -/
  block : Block
  /-- The model's own: the events the host issues, in that order (20_memory R42). -/
  port : List HostEvent
  /-- The model's own: the values the RDs so far have returned, oldest first (70 R157). -/
  returned : List ReadValue
  deriving DecidableEq, Repr

/-- The block right after reset (10_state R23), the host having issued nothing and read nothing. -/
def State.reset : State where
  block := Block.reset
  port := []
  returned := []

/-- Reasons for which the machine stops with a fault: there are none. The block's three faults are latched in FCAUSE,
FVAL and FPOS and the block goes on (60_exceptions R137, R138), so each is a next state (notes/assumptions/9.md). -/
inductive Fault where
  deriving DecidableEq, Repr

/-- Reasons for which the model gives an access no step. -/
inductive Refusal where
  /-- Raised by an arm of `exec` whose instruction has no meaning yet. Safe. -/
  | notModelled (mnemonic : String)
  /-- Raised by RD and WR of a reserved register number: "a model must refuse it (give it no step)" (20_memory R45,
  93 U1). Safe. -/
  | reservedRegister (rn : RegNum)
  /-- Raised by WR of a value wider than the register: refused (48_host_procedures R128, 93 U6). Safe. -/
  | valueTooWide (rn : RegNum) (v : PortWord)
  deriving DecidableEq, Repr

end Sys2Proof.Machine
end

