-- ==== Sys2Proof/Machine/Flags.lean ====
section
/-!
DEFINITION. The flags: PVALID, one bit per PLN byte (10_state R15). There are no others (10_state R29).
-/

namespace Sys2Proof.Machine

/-- `PVALID[j] <- 1`, the other bits unchanged (40_register_access R64). -/
def pvalidSupply (m : BitVec 16) (j : BitVec 4) : BitVec 16 := m ||| (1#16 <<< j.toNat)

/-- All sixteen bytes supplied (42_packer R80). -/
def pvalidAll : BitVec 16 := 0xFFFF#16

/-- No byte supplied (43_unpacker R85). -/
def pvalidNone : BitVec 16 := 0x0000#16

/-- `PVALID = 0xFFFF`, UNPACK's test (43_unpacker R85). -/
def pvalidComplete (m : BitVec 16) : Bool := m == 0xFFFF#16

end Sys2Proof.Machine
end

