-- ==== Sys2Proof/Machine/Ops.lean ====
section
/-!
DEFINITION. The shared operations: reading and writing the registers, the gate on FCAUSE, taking a fault, the reset
that leaves the faulted state, and taking the next event from the port.
-/

namespace Sys2Proof.Machine

/-! ### Register files -/

/-- PAL[j] (10_state R11). -/
def Block.palAt (b : Block) (j : BitVec 2) : Color := b.pal[j.toNat]'j.isLt

/-- IDX[p] (10_state R13). -/
def Block.idxAt (b : Block) (p : Pos) : Index := b.idx[p.toNat]'p.isLt

/-- PLN[j] (10_state R14). -/
def Block.plnAt (b : Block) (j : BitVec 4) : PlaneByte := b.pln[j.toNat]'j.isLt

/-- `PAL[j] <- v`. -/
def Block.setPal (b : Block) (j : BitVec 2) (v : Color) : Block := { b with pal := b.pal.set j.toNat v j.isLt }

/-- `COLOR <- v`. -/
def Block.setColor (b : Block) (v : Color) : Block := { b with color := v }

/-- `IDX[p] <- v`. -/
def Block.setIdx (b : Block) (p : Pos) (v : Index) : Block := { b with idx := b.idx.set p.toNat v p.isLt }

/-- `PLN[j] <- v` and `PVALID[j] <- 1`, the effect of a host write (40_register_access R64). -/
def Block.supplyPln (b : Block) (j : BitVec 4) (v : PlaneByte) : Block :=
  { b with pln := b.pln.set j.toNat v j.isLt, pvalid := pvalidSupply b.pvalid j }

/-! ### The operating state, fault entry and fault exit -/

/-- The block is faulted: `FCAUSE != 0` (10_state R22). -/
def Block.faulted (b : Block) : Bool := b.fcause != 0#2

/-- Cause 1, UnsupportedColor (60_exceptions R130). -/
def causeUnsupportedColor : BitVec 2 := 1#2

/-- Cause 2, MalformedBuffer (60_exceptions R130). -/
def causeMalformedBuffer : BitVec 2 := 2#2

/-- Cause 3, IllegalCommand (60_exceptions R130). -/
def causeIllegalCommand : BitVec 2 := 3#2

/-- `raise Fault(cause, val, pos)`: fault entry. It writes the three fault registers and nothing else; it is performed
only when the block is ready, which every caller's gate sees to (60_exceptions R137). -/
def Block.raiseFault (b : Block) (cause : BitVec 2) (val : BitVec 32) (pos : BitVec 6) : Block :=
  { b with fcause := cause, fval := val, fpos := pos }

/-- The reset both SRST and the reset input perform, the only exit from the faulted state: every register takes its
reset value (70_reset_and_hazards R150, 60_exceptions R139). -/
def Block.doReset (_b : Block) : Block := Block.reset

/-- The gate on FCAUSE: performed when ready, ignored when faulted (40_register_access R65, R69). -/
def Block.whenReady (f : Block → Block) (b : Block) : Block := if b.faulted then b else f b

/-! ### The register port -/

/-- The value a register reads as, zero-extended to the data lane (40_register_access R67); CMD reads as 0x00 (R68). -/
def Block.readReg (b : Block) : Reg → PortWord
  | .cmd => 0x00#32
  | .fcause => b.fcause.setWidth 32
  | .fval => b.fval
  | .fpos => b.fpos.setWidth 32
  | .pvalid => b.pvalid.setWidth 32
  | .color => b.color
  | .pal j => b.palAt j
  | .pln j => (b.plnAt j).setWidth 32
  | .idx p => (b.idxAt p).setWidth 32

/-- What the host gets from an RD: the register's width and value (40_register_access R67, 20_memory R33). -/
def Block.readValue (b : Block) (r : Reg) : ReadValue := { width := regWidth r, value := b.readReg r }

/-- A step that acts on the block alone. -/
def State.onBlock (f : Block → Block) (s : State) : Host.Outcome State Fault Refusal :=
  .next { s with block := f s.block }

/-- The host receives a value. -/
def State.giveBack (v : ReadValue) (s : State) : Host.Outcome State Fault Refusal :=
  .next { s with returned := s.returned ++ [v] }

/-- The refusal a decoding error becomes (20_memory R45, 48_host_procedures R128). -/
def refusalOf : DecodeError → Refusal
  | .reservedRegister rn => .reservedRegister rn
  | .valueTooWide rn v => .valueTooWide rn v

/-- What the next step finds on the port. -/
inductive Fetched where
  /-- The host has issued nothing: the block is idle (60_exceptions R147). -/
  | idle
  /-- The reset input is asserted (70_reset_and_hazards R150). -/
  | reset (rest : List HostEvent)
  /-- An access that is an instruction. -/
  | instr (i : Instr) (rest : List HostEvent)
  /-- An access the model refuses. -/
  | bad (e : DecodeError)
  deriving DecidableEq, Repr

/-- Take the oldest event from the port and decode it (20_memory R40, R42). -/
def fetch (s : State) : Fetched :=
  match s.port with
  | [] => .idle
  | .resetInput :: rest => .reset rest
  | .access a :: rest =>
    match decode a with
    | .ok i => .instr i rest
    | .error e => .bad e

end Sys2Proof.Machine
end

