-- ==== Sys2Proof/Machine/Packer.lean ====
section
/-!
DEFINITION. The planar packer: PACK (42_packer).
-/

namespace Sys2Proof.Machine

/-- One plane byte of a row: bit `b` of the eight indices, column c at bit 7-c (42_packer R81, 20_memory R36). -/
def planeOf (b : Nat) (row : Vector Index 8) : PlaneByte :=
  BitVec.ofBoolListBE [row[0].getLsbD b, row[1].getLsbD b, row[2].getLsbD b, row[3].getLsbD b,
    row[4].getLsbD b, row[5].getLsbD b, row[6].getLsbD b, row[7].getLsbD b]

/-- `pack_row(i0, ..., i7)`: the low and the high plane byte of a row (42_packer R81). -/
def packRow (row : Vector Index 8) : PlaneByte × PlaneByte := (planeOf 0 row, planeOf 1 row)

/-- Row k of a tile, IDX[8k] to IDX[8k+7] (42_packer R80). -/
def tileRow (t : Tile) (k : Fin 8) : Vector Index 8 := Vector.ofFn fun c => t[8 * k.val + c.val]'(by omega)

/-- The sixteen bytes of a tile: PLN[2k] the low, PLN[2k+1] the high plane of row k (42_packer R80, 20_memory R35). -/
def packTile (t : Tile) : Planar :=
  Vector.ofFn fun j =>
    let bytes := packRow (tileRow t ⟨j.val / 2, by omega⟩)
    if j.val % 2 = 0 then bytes.1 else bytes.2

/-- PACK on a ready block (42_packer R80). -/
def packBlock (b : Block) : Block := { b with pln := packTile b.idx, pvalid := pvalidAll }

/-- PACK (42_packer R80), performed only when ready (40 R65). -/
def execPack (s : State) : Host.Outcome State Fault Refusal := s.onBlock (Block.whenReady packBlock)

end Sys2Proof.Machine
end

