-- ==== Sys2Proof/Machine/Quantizer.lean ====
section
/-!
DEFINITION. The quantizer family: QUANT, QPAD, DEQ (41_quantizer). All three are performed only when ready (40 R65).
-/

namespace Sys2Proof.Machine

/-- `lut_find(PAL, c)`: the lowest position whose entry equals the colour in all 32 bits (41_quantizer R73, R74). -/
def lutFind (b : Block) (c : Color) : Option Index :=
  if b.palAt 0#2 = c then some 0#2
  else if b.palAt 1#2 = c then some 1#2
  else if b.palAt 2#2 = c then some 2#2
  else if b.palAt 3#2 = c then some 3#2
  else none

/-- QUANT p on a ready block (41_quantizer R70). -/
def quantCell (p : Pos) (b : Block) : Block :=
  match lutFind b b.color with
  | some j => b.setIdx p j
  | none => b.raiseFault causeUnsupportedColor b.color p

/-- QPAD p on a ready block (41_quantizer R71). -/
def padCell (p : Pos) (b : Block) : Block := b.setIdx p 0#2

/-- DEQ p on a ready block (41_quantizer R72). -/
def lookupCell (p : Pos) (b : Block) : Block := b.setColor (b.palAt (b.idxAt p))

/-- QUANT p (41_quantizer R70). -/
def execQuant (p : Pos) (s : State) : Host.Outcome State Fault Refusal := s.onBlock (Block.whenReady (quantCell p))

/-- QPAD p (41_quantizer R71). -/
def execQpad (p : Pos) (s : State) : Host.Outcome State Fault Refusal := s.onBlock (Block.whenReady (padCell p))

/-- DEQ p (41_quantizer R72). -/
def execDeq (p : Pos) (s : State) : Host.Outcome State Fault Refusal := s.onBlock (Block.whenReady (lookupCell p))

end Sys2Proof.Machine
end

