-- ==== Sys2Proof/Machine/System.lean ====
section
/-!
DEFINITION. The system command: SRST (44_system).
-/

namespace Sys2Proof.Machine

/-- SRST: soft reset, performed whether the block is ready or faulted (44_system R90). -/
def execSrst (s : State) : Host.Outcome State Fault Refusal := s.onBlock Block.doReset

end Sys2Proof.Machine
end

