-- ==== Sys2Proof/Machine/Unpacker.lean ====
section
/-!
DEFINITION. The planar unpacker: UNPACK (43_unpacker).
-/

namespace Sys2Proof.Machine

/-- Column c of `unpack_row(low, high)`: the two-bit value `{high[7-c], low[7-c]}` (43_unpacker R86). -/
def unpackCell (low high : PlaneByte) (c : Nat) : Index :=
  BitVec.ofBool (high.getLsbD (7 - c)) ++ BitVec.ofBool (low.getLsbD (7 - c))

/-- `unpack_row(low, high)`: the eight indices of a row, leftmost first (43_unpacker R86). -/
def unpackRow (low high : PlaneByte) : Vector Index 8 := Vector.ofFn fun c => unpackCell low high c.val

/-- The sixty-four cells of a planar tile, row k from PLN[2k] and PLN[2k+1] (43_unpacker R85). -/
def unpackTile (q : Planar) : Tile :=
  Vector.ofFn fun p =>
    (unpackRow (q[2 * (p.val / 8)]'(by omega)) (q[2 * (p.val / 8) + 1]'(by omega)))[p.val % 8]'(by omega)

/-- UNPACK on a ready block (43_unpacker R85). -/
def unpackBlock (b : Block) : Block :=
  if pvalidComplete b.pvalid then { b with idx := unpackTile b.pln, pvalid := pvalidNone }
  else b.raiseFault causeMalformedBuffer (b.pvalid.setWidth 32) 0#6

/-- UNPACK (43_unpacker R85), performed only when ready (40 R65). -/
def execUnpack (s : State) : Host.Outcome State Fault Refusal := s.onBlock (Block.whenReady unpackBlock)

end Sys2Proof.Machine
end

