-- ==== Sys2Proof/Machine/RegisterPort.lean ====
section
/-!
DEFINITION. The port accesses: RD and WR (40_register_access).
-/

namespace Sys2Proof.Machine

/-- A WR to CMD of word w, in the order of the rule's own pseudocode; each command sees to its own gate on FCAUSE, and
a reserved word is gated here (40_register_access R65). -/
def execCmdWord (w : CmdWord) (s : State) : Host.Outcome State Fault Refusal :=
  if w = 0x01#8 then execPack s
  else if w = 0x02#8 then execUnpack s
  else if w = 0x3F#8 then execSrst s
  else if w.extractLsb' 6 2 = 0b01#2 then execQuant (w.extractLsb' 0 6) s
  else if w.extractLsb' 6 2 = 0b10#2 then execQpad (w.extractLsb' 0 6) s
  else if w.extractLsb' 6 2 = 0b11#2 then execDeq (w.extractLsb' 0 6) s
  else s.onBlock (Block.whenReady fun b => b.raiseFault causeIllegalCommand (w.setWidth 32) 0#6)

/-- The effect of a WR to a register other than CMD on a ready block: the read-only registers ignore it (R66), the
data registers take it at their width (R61 to R64). -/
def Block.writeReg (b : Block) (r : Reg) (v : PortWord) : Block :=
  match r with
  | .cmd => b
  | .fcause => b
  | .fval => b
  | .fpos => b
  | .pvalid => b
  | .color => b.setColor v
  | .pal j => b.setPal j v
  | .pln j => b.supplyPln j (v.setWidth 8)
  | .idx p => b.setIdx p (v.setWidth 2)

/-- WR to an assigned register (40_register_access R60); a faulted block ignores a data write (R69). -/
def execRegWrite (r : Reg) (v : PortWord) (s : State) : Host.Outcome State Fault Refusal :=
  if r = .cmd then execCmdWord (cmdWordOf v) s
  else s.onBlock (Block.whenReady fun b => b.writeReg r v)

/-- WR rn, v (40_register_access R60). A reserved number is refused (20_memory R45) and so is a value wider than the
register (48_host_procedures R128). -/
def execWr (rn : RegNum) (v : PortWord) (s : State) : Host.Outcome State Fault Refusal :=
  match regOfNum rn with
  | none => .refused (.reservedRegister rn)
  | some r => if fitsReg r v then execRegWrite r v s else .refused (.valueTooWide rn v)

/-- RD rn (40_register_access R67): the host gets the value and the block does not change, ready or faulted. A reserved
number is refused (20_memory R45). -/
def execRd (rn : RegNum) (s : State) : Host.Outcome State Fault Refusal :=
  match regOfNum rn with
  | none => .refused (.reservedRegister rn)
  | some r => s.giveBack (s.block.readValue r)

end Sys2Proof.Machine
end

