-- ==== Sys2Proof/Machine/Dispatch.lean ====
section
/-!
DEFINITION. The dispatch: one arm per constructor of Instr, one direct call of its meaning each.
-/

namespace Sys2Proof.Machine

def exec (i : Instr) (s : State) : Host.Outcome State Fault Refusal :=
  match i with
  | .pack => Sys2Proof.Machine.execPack s
  | .unpack => Sys2Proof.Machine.execUnpack s
  | .srst => Sys2Proof.Machine.execSrst s
  | .quant p => Sys2Proof.Machine.execQuant p s
  | .qpad p => Sys2Proof.Machine.execQpad p s
  | .deq p => Sys2Proof.Machine.execDeq p s
  | .rd rn => Sys2Proof.Machine.execRd rn s
  | .wr rn v => Sys2Proof.Machine.execWr rn v s

end Sys2Proof.Machine
end

