-- ==== Sys2Proof/Machine/Step.lean ====
section
/-!
DEFINITION. One step: the block performs the oldest event the host has issued, completely (20_memory R40, R42). With
nothing issued it is idle and nothing changes (60_exceptions R147).
-/

namespace Sys2Proof.Machine

/-- One step of the block. -/
def step (s : State) : Host.Outcome State Fault Refusal :=
  match fetch s with
  | .idle => .next s
  | .reset rest => .next { s with block := s.block.doReset, port := rest }
  | .instr i rest => exec i { s with port := rest }
  | .bad e => .refused (refusalOf e)

/-- The state with the access a table word stands for issued next (notes/assumptions/1.md, 7.md). -/
def State.withFetchWord (s : State) (nbits w : Nat) : State :=
  { s with port := .access (tableAccess nbits w) :: s.port }

end Sys2Proof.Machine
end

