-- ==== Sys2Proof/Machine/Assembler.lean ====
section
/-!
DEFINITION. The assembler syntax and the pseudo-instructions (30_encoding R58, R59). They add no behaviour: each
statement is a list of port accesses.

Text is a list of characters. Blanks and commas separate operands (notes/assumptions/14.md).
-/

namespace Sys2Proof.Machine

/-! ### The accesses of a statement -/

/-- `WR reg, value`. -/
def wrAccess (r : Reg) (v : PortWord) : Access := .write (numOfReg r) v

/-- `RD reg`. -/
def rdAccess (r : Reg) : Access := .read (numOfReg r)

/-- The numbers 0 to n-1 as words of width w. -/
def countTo (w n : Nat) : List (BitVec w) := (List.range n).map (BitVec.ofNat w)

/-- `LDPAL c0, c1, c2, c3` (30_encoding R59). -/
def ldPal (cs : List Color) : List Access := List.zipWith (fun j c => wrAccess (.pal j) c) (countTo 2 4) cs

/-- `LDPLN b0, ..., b15` (30_encoding R59); a shorter list writes only the first bytes (48_host_procedures R112). -/
def ldPln (bs : List PlaneByte) : List Access :=
  List.zipWith (fun j b => wrAccess (.pln j) (b.setWidth 32)) (countTo 4 16) bs

/-- `LDIDX i0, ..., i63` (30_encoding R59). -/
def ldIdx (is : List Index) : List Access :=
  List.zipWith (fun p i => wrAccess (.idx p) (i.setWidth 32)) (countTo 6 64) is

/-- `QPIX p, c` (30_encoding R59). -/
def qPix (p : Pos) (c : Color) : List Access := [wrAccess .color c, encode (.quant p)]

/-- `GETPIX p` (30_encoding R59). -/
def getPix (p : Pos) : List Access := [encode (.deq p), rdAccess .color]

/-- `RDPLN` (30_encoding R59). -/
def rdPln : List Access := (countTo 4 16).map fun j => rdAccess (.pln j)

/-- `RDIDX` (30_encoding R59). -/
def rdIdx : List Access := (countTo 6 64).map fun p => rdAccess (.idx p)

/-- `CHK` (30_encoding R59). -/
def chk : List Access := [rdAccess .fcause]

/-! ### Statements -/

/-- Why a line does not assemble: "an assembly error, not a command" (30_encoding R58). -/
inductive AsmError where
  | unknownStatement
  | wrongOperands
  | badRegister
  | badNumeral
  | doesNotFit
  deriving DecidableEq, Repr

/-- A value that fits a width (30_encoding R58). -/
def fitting (w n : Nat) : Except AsmError (BitVec w) :=
  if n < 2 ^ w then .ok (BitVec.ofNat w n) else .error .doesNotFit

/-- Every element of a list, or the first error. -/
def allOk {α β : Type} (f : α → Except AsmError β) : List α → Except AsmError (List β)
  | [] => .ok []
  | a :: as =>
    match f a with
    | .error e => .error e
    | .ok b =>
      match allOk f as with
      | .error e => .error e
      | .ok bs => .ok (b :: bs)

/-- One decimal digit. -/
def digitChar (n : Nat) : Char := Char.ofNat (48 + n)

/-- The decimal suffix of a register name, 0 to 63 (30_encoding R58). -/
def suffixOf (n : Nat) : List Char := if n < 10 then [digitChar n] else [digitChar (n / 10), digitChar (n % 10)]

/-- The registers by name (30_encoding R58). -/
def regNames : List (List Char × Reg) :=
  [(['C', 'M', 'D'], .cmd), (['F', 'C', 'A', 'U', 'S', 'E'], .fcause), (['F', 'V', 'A', 'L'], .fval),
   (['F', 'P', 'O', 'S'], .fpos), (['P', 'V', 'A', 'L', 'I', 'D'], .pvalid), (['C', 'O', 'L', 'O', 'R'], .color)] ++
  ((List.range 4).map fun j => (['P', 'A', 'L'] ++ suffixOf j, Reg.pal (BitVec.ofNat 2 j))) ++
  ((List.range 16).map fun j => (['P', 'L', 'N'] ++ suffixOf j, Reg.pln (BitVec.ofNat 4 j))) ++
  ((List.range 64).map fun p => (['I', 'D', 'X'] ++ suffixOf p, Reg.idx (BitVec.ofNat 6 p)))

/-- A register's name (30_encoding R58). -/
def parseReg (t : List Char) : Except AsmError Reg :=
  match regNames.find? (fun e => e.1 == t) with
  | some e => .ok e.2
  | none => .error .badRegister

/-- The value of a digit below 16. -/
def digitOf (c : Char) : Option Nat :=
  let n := c.toNat
  if 48 ≤ n ∧ n ≤ 57 then some (n - 48)
  else if 65 ≤ n ∧ n ≤ 70 then some (n - 55)
  else if 97 ≤ n ∧ n ≤ 102 then some (n - 87)
  else none

/-- Digits in a base, most significant first. -/
def parseDigits (base acc : Nat) : List Char → Option Nat
  | [] => some acc
  | c :: cs =>
    match digitOf c with
    | none => none
    | some d => if d < base then parseDigits base (acc * base + d) cs else none

/-- A numeral: `0x` hexadecimal, `0b` binary, other numerals decimal (00_scope section 6). -/
def parseNum (t : List Char) : Except AsmError Nat :=
  let digits : Nat × List Char :=
    match t with
    | '0' :: 'x' :: ds => (16, ds)
    | '0' :: 'b' :: ds => (2, ds)
    | ds => (10, ds)
  if digits.2.isEmpty then .error .badNumeral
  else
    match parseDigits digits.1 0 digits.2 with
    | some n => .ok n
    | none => .error .badNumeral

/-- A numeral that fits a width. -/
def parseFit (w : Nat) (t : List Char) : Except AsmError (BitVec w) :=
  match parseNum t with
  | .error e => .error e
  | .ok n => fitting w n

/-- A position: a numeral 0 to 63, or `row:col` with row and col in 0 to 7, meaning 8*row + col (30_encoding R58). -/
def parsePos (t : List Char) : Except AsmError Pos :=
  match t.span (· != ':') with
  | (p, []) => parseFit 6 p
  | (row, _ :: col) =>
    match parseFit 3 row, parseFit 3 col with
    | .ok r, .ok c => .ok (posOf r c)
    | .error e, _ => .error e
    | _, .error e => .error e

/-- Cut a line into words: `;` starts a comment, blanks and commas separate. -/
def wordsOf (word : List Char) : List Char → List (List Char)
  | [] => if word.isEmpty then [] else [word.reverse]
  | c :: cs =>
    if c = ';' then (if word.isEmpty then [] else [word.reverse])
    else if c = ' ' ∨ c = ',' ∨ c = '\t' then
      (if word.isEmpty then wordsOf [] cs else word.reverse :: wordsOf [] cs)
    else wordsOf (c :: word) cs

/-- A command with a position operand. -/
def posStatement (f : Pos → List Access) (t : List Char) : Except AsmError (List Access) :=
  match parsePos t with
  | .ok p => .ok (f p)
  | .error e => .error e

/-- A statement that loads a register file, all of it. -/
def loadStatement {w : Nat} (n : Nat) (f : List (BitVec w) → List Access) (ts : List (List Char)) :
    Except AsmError (List Access) :=
  if ts.length = n then
    match allOk (parseFit w) ts with
    | .ok vs => .ok (f vs)
    | .error e => .error e
  else .error .wrongOperands

/-- The accesses of one statement, from its words (30_encoding R58, R59). -/
def assembleWords : List (List Char) → Except AsmError (List Access)
  | [] => .ok []
  | [['P', 'A', 'C', 'K']] => .ok [encode .pack]
  | [['U', 'N', 'P', 'A', 'C', 'K']] => .ok [encode .unpack]
  | [['S', 'R', 'S', 'T']] => .ok [encode .srst]
  | [['R', 'D', 'P', 'L', 'N']] => .ok rdPln
  | [['R', 'D', 'I', 'D', 'X']] => .ok rdIdx
  | [['C', 'H', 'K']] => .ok chk
  | [['Q', 'U', 'A', 'N', 'T'], p] => posStatement (fun p => [encode (.quant p)]) p
  | [['Q', 'P', 'A', 'D'], p] => posStatement (fun p => [encode (.qpad p)]) p
  | [['D', 'E', 'Q'], p] => posStatement (fun p => [encode (.deq p)]) p
  | [['G', 'E', 'T', 'P', 'I', 'X'], p] => posStatement getPix p
  | [['Q', 'P', 'I', 'X'], p, c] =>
    match parseFit 32 c with
    | .ok c => posStatement (fun p => qPix p c) p
    | .error e => .error e
  | [['R', 'D'], r] =>
    match parseReg r with
    | .ok r => .ok [rdAccess r]
    | .error e => .error e
  | [['W', 'R'], r, v] =>
    match parseReg r with
    | .error e => .error e
    | .ok r =>
      match parseFit (regWidth r) v with
      | .ok v => .ok [wrAccess r (v.setWidth 32)]
      | .error e => .error e
  | ['L', 'D', 'P', 'A', 'L'] :: ts => loadStatement 4 ldPal ts
  | ['L', 'D', 'P', 'L', 'N'] :: ts => loadStatement 16 ldPln ts
  | ['L', 'D', 'I', 'D', 'X'] :: ts => loadStatement 64 ldIdx ts
  | _ :: _ => .error .unknownStatement

/-- The accesses of one line (30_encoding R58: one statement per line). -/
def assembleLine (line : List Char) : Except AsmError (List Access) := assembleWords (wordsOf [] line)

end Sys2Proof.Machine
end

