-- ==== Sys2Proof/Machine/HostDepth.lean ====
section
/-!
DEFINITION. Host side: the depth converters (48_host_procedures R120 to R122).
-/

namespace Sys2Proof.Machine

/-- `narrow`: every even-indexed byte (48 R120); a buffer of odd length is refused, `none` (93 U18). -/
def narrow : List PlaneByte → Option (List PlaneByte)
  | [] => some []
  | [_] => none
  | low :: _ :: rest => (narrow rest).map (low :: ·)

/-- `widen`: each byte into an equal (low, high) pair (48 R121). -/
def widen : List PlaneByte → List PlaneByte
  | [] => []
  | b :: rest => b :: b :: widen rest

end Sys2Proof.Machine
end

