-- ==== Sys2Proof/Machine/HostPadder.lean ====
section
/-!
DEFINITION. Host side: the tile grid padder (48_host_procedures R104 to R107).
-/

namespace Sys2Proof.Machine

/-- The padding (before, after) of one axis: none where the size is a multiple of 8 (R104) or at most 8 (R106), else a
total of 8 - rem with the larger half before (R105, 90_conflicts C1). -/
def padAxis (size : Nat) : Nat × Nat :=
  let rem := size % 8
  if rem = 0 then (0, 0)
  else if size ≤ 8 then (0, 0)
  else ((8 - rem + 1) / 2, (8 - rem) / 2)

/-- The size of an axis after padding. -/
def paddedSize (size : Nat) : Nat := (padAxis size).1 + size + (padAxis size).2

/-- The cell at padded coordinate x of an axis is inside the image: not before and not after it (R107). -/
def insideAxis (size x : Nat) : Bool := (padAxis size).1 ≤ x && x < (padAxis size).1 + size

/-- The cell at padded coordinates (x, y) is a padding cell (R107). -/
def isPadding (width height x y : Nat) : Bool := !(insideAxis width x && insideAxis height y)

end Sys2Proof.Machine
end

