-- ==== Sys2Proof/Machine/HostPalette.lean ====
section
/-!
DEFINITION. Host side: the palette normaliser (48_host_procedures R100 to R103).
-/

namespace Sys2Proof.Machine

/-- The default palette [white, gray, grey, black] (48 R101, 10_state R11). -/
def defaultPalette : List Color := [0xFFFFFFFF#32, 0xAAAAAAFF#32, 0x555555FF#32, 0x000000FF#32]

/-- The order in which ramp colours fill a short palette: white, black, grey, gray (48 R102). -/
def fillOrder : List Color := [0xFFFFFFFF#32, 0x000000FF#32, 0x555555FF#32, 0xAAAAAAFF#32]

/-- Append the ramp colours not already present, in order, until the length is 4 (48 R102). -/
def fillPalette : List Color → List Color → List Color
  | p, [] => p
  | p, r :: rs =>
    if p.length = 4 then p
    else if r ∈ p then fillPalette p rs
    else fillPalette (p ++ [r]) rs

/-- The normalised palette: the default for an empty or absent one (R101), filled up for 1 to 3 entries (R102),
unchanged for 4 (R103); more than 4 entries are refused, `none` (R103, 93 U13). -/
def normalisePalette (p : Option (List Color)) : Option (List Color) :=
  let given := p.getD []
  if given.length = 0 then some defaultPalette
  else if given.length ≤ 4 then some (fillPalette given fillOrder)
  else none

end Sys2Proof.Machine
end

