-- ==== Sys2Proof/Machine/HostCodec.lean ====
section
/-!
DEFINITION. Host side: the encode and decode procedures around the block (48_host_procedures R108 to R119, R123 to R125).

A procedure drives the block: it issues accesses on the port and reads what they return. It keeps nothing of a failed
conversion: its result is the output or one error (R125, 60_exceptions R148).
-/

namespace Sys2Proof.Machine

/-! ### Errors and images -/

/-- What a conversion fails with. -/
inductive HostError where
  /-- A pixel's colour is not in the palette (R123, R124); the coordinates are as `COORD_ORIGIN` has them. -/
  | unsupportedColor (c : Color) (at_ : Int × Int)
  /-- A trailing partial tile (R112) or too few tiles for the dimensions (R119). -/
  | malformedBuffer
  /-- A width or height that is zero, negative or not resolvable (R117). -/
  | invalidDimension
  /-- The host wrote a reserved command word (R124). -/
  | illegalCommand (w : PortWord)
  /-- Refused: more than four palette entries (R103, 93 U13). -/
  | paletteRefused
  /-- Refused: a padded dimension is not a multiple of 8 (R106, 93 U2). -/
  | notTileAligned
  /-- Refused: an image of width or height 0 (93 U16). -/
  | emptyImage
  /-- Refused: rows that are not `height` rows of `width` pixels; not an image of the source's data model. -/
  | notAnImage
  /-- The block refused an access; none of these procedures issues such an access. -/
  | accessRefused (r : Refusal)
  /-- The block returned another number of values than was asked for; the block never does. -/
  | protocol
  deriving DecidableEq, Repr

/-- Width, height, rows of colours and an optional palette (00_scope section 8). -/
structure Image where
  width : Nat
  height : Nat
  rows : List (List Color)
  palette : Option (List Color)
  deriving DecidableEq, Repr

/-- Where a tile stands: its row and column in the grid, and the padding left of and above the image (R124). -/
structure TileOrigin where
  tr : Nat
  tc : Nat
  left : Nat
  top : Nat
  deriving DecidableEq, Repr

/-! ### Driving the block -/

/-- Issue events one after another, each as one step (20_memory R40, R42; 70 R157). -/
def issueAll : List HostEvent → State → Host.Outcome State Fault Refusal
  | [], s => .next s
  | e :: es, s =>
    match step { s with port := [e] } with
    | .next t => issueAll es t
    | .fault r => .fault r
    | .refused r => .refused r

/-- Issue accesses and take the values they return. -/
def hostCall (as : List Access) (s : State) : Except HostError (State × List PortWord) :=
  match issueAll (as.map .access) { s with returned := [] } with
  | .next t => .ok (t, t.returned.map ReadValue.value)
  | .fault r => nomatch r
  | .refused r => .error (.accessRefused r)

/-- Pixel coordinates of a fault in the padded frame, x = 8*tc + FPOS mod 8, y = 8*tr + FPOS div 8 (R124). -/
def paddedCoords (o : TileOrigin) (fpos : Nat) : Int × Int := (8 * o.tc + fpos % 8, 8 * o.tr + fpos / 8)

/-- Pixel coordinates of a fault in the source image, (x - left, y - top) (R124). -/
def sourceCoords (o : TileOrigin) (fpos : Nat) : Int × Int :=
  ((paddedCoords o fpos).1 - o.left, (paddedCoords o fpos).2 - o.top)

/-- The coordinates a host reports, in the frame and form of the open parameter (R124, 92 D21). DEDUCED: they count
from 0, as R124's formulas do, although 91_not_in_source N8 names the base among what is open
(notes/assumptions/19.md; unsafe). -/
def reportCoords (k : CoordOrigin) (o : TileOrigin) (fpos : Nat) : Int × Int :=
  let xy := match k.frame with
    | .padded => paddedCoords o fpos
    | .source => sourceCoords o fpos
  match k.form with
  | .xy => xy
  | .rowColumn => (xy.2, xy.1)

/-- A block fault as a source error (R124). -/
def translateFault (fcause fval fpos : PortWord) (o : TileOrigin) : HostError :=
  if fcause = 1#32 then .unsupportedColor fval (reportCoords Config.coordOrigin o fpos.toNat)
  else if fcause = 2#32 then .malformedBuffer
  else .illegalCommand fval

/-- `CHK` after the commands of a tile (R127): the conversion goes on, or fails by R124. -/
def checkFault (o : TileOrigin) (s : State) : Except HostError State :=
  match hostCall [rdAccess .fcause, rdAccess .fval, rdAccess .fpos] s with
  | .ok (t, [fcause, fval, fpos]) => if fcause = 0#32 then .ok t else .error (translateFault fcause fval fpos o)
  | .ok _ => .error .protocol
  | .error e => .error e

/-! ### Encoding (R108 to R111) -/

/-- The pixel of an image. -/
def pixelAt (img : Image) (x y : Nat) : Option Color := (img.rows[y]?).bind (·[x]?)

/-- The image has `height` rows of `width` pixels. -/
def wellShaped (img : Image) : Bool := img.rows.length == img.height && img.rows.all (·.length == img.width)

/-- The cell of the map at padded coordinates: `none` for a padding cell, else the source pixel (R107). -/
def mapCell (img : Image) (x y : Nat) : Option Color :=
  if isPadding img.width img.height x y then none
  else pixelAt img (x - (padAxis img.width).1) (y - (padAxis img.height).1)

/-- The sixty-four cells of the tile at row tr and column tc of the grid (R108). -/
def tileCells (img : Image) (tr tc : Nat) : List (Option Color) :=
  (List.range 64).map fun p => mapCell img (8 * tc + p % 8) (8 * tr + p / 8)

/-- The accesses that quantize one cell (R110 step 5). -/
def cellAccesses (p : Pos) : Option Color → List Access
  | none => [encode (.qpad p)]
  | some c => qPix p c

/-- The accesses that load one tile and pack it (R110 step 5). -/
def tileAccesses (cells : List (Option Color)) : List Access :=
  (List.zipWith cellAccesses (countTo 6 64) cells).flatten ++ [encode .pack]

/-- Encode one tile on the block: its sixteen bytes, PLN[0] first (R109, R110 step 5). -/
def encodeTile (o : TileOrigin) (cells : List (Option Color)) (s : State) :
    Except HostError (State × List PlaneByte) :=
  match hostCall (tileAccesses cells) s with
  | .error e => .error e
  | .ok (t, _) =>
    match checkFault o t with
    | .error e => .error e
    | .ok t =>
      match hostCall rdPln t with
      | .error e => .error e
      | .ok (t, bytes) => .ok (t, bytes.map (·.setWidth 8))

/-- Encode tiles one after another, their bytes in that order (R109). -/
def encodeTiles (img : Image) : List (Nat × Nat) → State → Except HostError (List PlaneByte)
  | [], _ => .ok []
  | (tr, tc) :: ts, s =>
    match encodeTile ⟨tr, tc, (padAxis img.width).1, (padAxis img.height).1⟩ (tileCells img tr tc) s with
    | .error e => .error e
    | .ok (t, bytes) =>
      match encodeTiles img ts t with
      | .error e => .error e
      | .ok rest => .ok (bytes ++ rest)

/-- The tiles of a grid in row-major order (R109, 20_memory R38). -/
def gridTiles (rows cols : Nat) : List (Nat × Nat) :=
  (List.range rows).flatMap fun tr => (List.range cols).map fun tc => (tr, tc)

/-- SRST, and the palette where one is given (R110 steps 1 and 2, R127 b and c). -/
def startAccesses (given : Option (List Color)) (norm : List Color) : List Access :=
  encode .srst :: (if given.isSome then ldPal norm else [])

/-- Encode an image on the block (R110): the packed bytes, or one error and no bytes. -/
def encodeImage (img : Image) (s : State) : Except HostError (List PlaneByte) :=
  if !wellShaped img then .error .notAnImage
  else if img.width = 0 ∨ img.height = 0 then .error .emptyImage
  else
    match normalisePalette img.palette with
    | none => .error .paletteRefused
    | some norm =>
      if paddedSize img.width % 8 ≠ 0 ∨ paddedSize img.height % 8 ≠ 0 then .error .notTileAligned
      else
        match hostCall (startAccesses img.palette norm) s with
        | .error e => .error e
        | .ok (t, _) => encodeTiles img (gridTiles (paddedSize img.height / 8) (paddedSize img.width / 8)) t

/-! ### Decoding (R112 to R114) -/

/-- Cut a stream into n groups of sixteen bytes (20_memory R38); the last may be shorter. -/
def groupsOf : Nat → List PlaneByte → List (List PlaneByte)
  | 0, _ => []
  | n + 1, bs => bs.take 16 :: groupsOf n (bs.drop 16)

/-- Unpack one group on the block and collect what `collect` reads: `rdIdx` for the indices, or GETPIX of every cell
for the colours (R113). -/
def decodeTile (collect : List Access) (group : List PlaneByte) (s : State) :
    Except HostError (State × List PortWord) :=
  match hostCall (ldPln group ++ [encode .unpack]) s with
  | .error e => .error e
  | .ok (t, _) =>
    match checkFault ⟨0, 0, 0, 0⟩ t with
    | .error e => .error e
    | .ok t => hostCall collect t

/-- Unpack groups one after another (R113). -/
def decodeTiles (collect : List Access) : List (List PlaneByte) → State → Except HostError (List (List PortWord))
  | [], _ => .ok []
  | g :: gs, s =>
    match decodeTile collect g s with
    | .error e => .error e
    | .ok (t, vs) =>
      match decodeTiles collect gs t with
      | .error e => .error e
      | .ok rest => .ok (vs :: rest)

/-- Reset the block, load the palette where one is given, and unpack the groups. -/
def startAndDecode (collect : List Access) (given : Option (List Color)) (norm : List Color)
    (groups : List (List PlaneByte)) (s : State) : Except HostError (List (List PortWord)) :=
  match hostCall (startAccesses given norm) s with
  | .error e => .error e
  | .ok (t, _) => decodeTiles collect groups t

/-- The tiles of a stream as indices, the host testing the length first (R112, R113, R114). -/
def decodeStream (bs : List PlaneByte) (s : State) : Except HostError (List (List Index)) :=
  if bs.length % 16 ≠ 0 then .error .malformedBuffer
  else
    match startAndDecode rdIdx none [] (groupsOf (bs.length / 16) bs) s with
    | .error e => .error e
    | .ok tiles => .ok (tiles.map (·.map (·.setWidth 2)))

/-- The tiles of a stream as indices, the host feeding the stream as it comes: the block's own fault finds the partial
tile (R112, second way). -/
def feedStream (bs : List PlaneByte) (s : State) : Except HostError (List (List Index)) :=
  match startAndDecode rdIdx none [] (groupsOf ((bs.length + 15) / 16) bs) s with
  | .error e => .error e
  | .ok tiles => .ok (tiles.map (·.map (·.setWidth 2)))

/-! ### Reconstruction (R115 to R119) -/

/-- The largest s up to k with s*s ≤ n. -/
def isqrtUpTo (n : Nat) : Nat → Nat
  | 0 => 0
  | k + 1 => if (k + 1) * (k + 1) ≤ n then k + 1 else isqrtUpTo n k

/-- `isqrt(n)`, the largest s with s*s ≤ n (00_scope section 6, 45 R94). -/
def isqrt (n : Nat) : Nat := isqrtUpTo n n

/-- What one hint infers (R116): not resolvable with no tiles (R117, "ambiguous inference with tile_count == 0") or
with a hint of zero or less, which is rejected before any division (45 R94); else the open parameter. -/
def inferDimensions (tileCount : Nat) (hint : Int) (w h : Option Int) : Option (Int × Int) :=
  if tileCount = 0 ∨ hint ≤ 0 then none else Config.dimInfer tileCount w h

/-- The dimensions before they are checked (R115, R116). -/
def rawDimensions (tileCount : Nat) (w h : Option Int) : Option (Int × Int) :=
  match w, h with
  | some w, some h => some (w, h)
  | none, none => some (isqrt tileCount * 8, isqrt tileCount * 8)
  | some w, none => inferDimensions tileCount w (some w) none
  | none, some h => inferDimensions tileCount h none (some h)

/-- Width and height, or InvalidDimensionError (R117). -/
def dimensions (tileCount : Nat) (w h : Option Int) : Except HostError (Nat × Nat) :=
  match rawDimensions tileCount w h with
  | none => .error .invalidDimension
  | some (w, h) => if w ≤ 0 ∨ h ≤ 0 then .error .invalidDimension else .ok (w.toNat, h.toNat)

/-- The eight cells of row `strip` of a tile (R118). -/
def stripOf {α : Type} (tile : List α) (strip : Nat) : List α := (tile.drop (strip * 8)).take 8

/-- The strips of the tiles numbered `first`, `first + 1`, ..., n of them; a missing tile is MalformedBufferError
(R118, R119, 90_conflicts C3). -/
def stripsFrom {α : Type} (tiles : List (List α)) (strip : Nat) : Nat → Nat → Except HostError (List α)
  | _, 0 => .ok []
  | first, n + 1 =>
    match tiles[first]? with
    | none => .error .malformedBuffer
    | some tile =>
      match stripsFrom tiles strip (first + 1) n with
      | .error e => .error e
      | .ok rest => .ok (stripOf tile strip ++ rest)

/-- Output row y: the tiles of tile row y div 8, at strip y mod 8 (R118). Its first 8*(width div 8) pixels are all the
spec settles (93 U15), and all the model gives. -/
def rowOf {α : Type} (tiles : List (List α)) (width y : Nat) : Except HostError (List α) :=
  stripsFrom tiles (y % 8) (y / 8 * (width / 8)) (width / 8)

/-- Output rows y, y + 1, ..., n of them (R118). -/
def rowsFrom {α : Type} (tiles : List (List α)) (width : Nat) : Nat → Nat → Except HostError (List (List α))
  | _, 0 => .ok []
  | y, n + 1 =>
    match rowOf tiles width y with
    | .error e => .error e
    | .ok row =>
      match rowsFrom tiles width (y + 1) n with
      | .error e => .error e
      | .ok rest => .ok (row :: rest)

/-- Every cell of a tile as a colour, GETPIX of the positions in order (R113). -/
def getAllPix : List Access := (countTo 6 64).flatMap getPix

/-- Decode a stream on the block into an image (R112 to R119): the reconstructor's palette lookup is DEQ. DESIGN CHOICE:
the image carries the caller's palette as it came, absent or unnormalised, since the spec does not say which palette it
carries (notes/assumptions/18.md; unsafe). -/
def decodeImage (bs : List PlaneByte) (w h : Option Int) (palette : Option (List Color)) (s : State) :
    Except HostError Image :=
  if bs.length % 16 ≠ 0 then .error .malformedBuffer
  else
    match normalisePalette palette with
    | none => .error .paletteRefused
    | some norm =>
      match dimensions (bs.length / 16) w h with
      | .error e => .error e
      | .ok (w, h) =>
        match startAndDecode getAllPix palette norm (groupsOf (bs.length / 16) bs) s with
        | .error e => .error e
        | .ok tiles =>
          match rowsFrom tiles w 0 h with
          | .error e => .error e
          | .ok rows => .ok { width := w, height := h, rows := rows, palette := palette }

end Sys2Proof.Machine
end

