-- ==== Sys2Proof/Safety.lean ====
section
/-!
DEFINITION. What counts as a good run (70_reset_and_hazards R157), what a fault record says of the block (10_state R24),
and what "the lowest matching position" and "the three causes" mean, in the terms the statements use.
-/

namespace Sys2Proof.Machine

/-- A run is good when its final state has FCAUSE = 0 (70 R157). -/
abbrev GoodEnd (s : State) : Prop := s.block.fcause = 0#2

/-- The reserved command words, 0x00 and 0x03 to 0x3E (30_encoding R56). -/
abbrev ReservedWord (w : CmdWord) : Prop := w = 0x00#8 ∨ (0x03#8 ≤ w ∧ w ≤ 0x3E#8)

/-- The reserved register numbers, 0x06, 0x07, 0x0C to 0x0F and 0x20 to 0x3F (20_memory R45). -/
abbrev ReservedNumber (rn : RegNum) : Prop :=
  rn = 0x06#7 ∨ rn = 0x07#7 ∨ (0x0C#7 ≤ rn ∧ rn ≤ 0x0F#7) ∨ (0x20#7 ≤ rn ∧ rn ≤ 0x3F#7)

/-- The block holds colour c at no position of PAL. -/
abbrev NotInPalette (b : Block) (c : Color) : Prop := ∀ j : BitVec 2, b.palAt j ≠ c

/-- Position j is the lowest one of PAL that holds colour c (41_quantizer R73). -/
abbrev LowestMatch (b : Block) (c : Color) (j : Index) : Prop :=
  b.palAt j = c ∧ ∀ k : BitVec 2, k < j → b.palAt k ≠ c

/-- Clauses (c) to (g) of 10_state R24: what the fault registers hold in every reachable state. Clauses (a) and (b)
hold by the widths of the fields. -/
structure FaultRecordInv (b : Block) : Prop where
  /-- (c) ready: no value, no position. -/
  ready : b.fcause = 0#2 → b.fval = 0#32 ∧ b.fpos = 0#6
  /-- (d) causes 2 and 3 carry position 0. -/
  position : b.fcause = 2#2 ∨ b.fcause = 3#2 → b.fpos = 0#6
  /-- (e) MalformedBuffer: the mask, zero-extended and incomplete. -/
  malformed : b.fcause = 2#2 → b.fval.extractLsb' 16 16 = 0#16 ∧ b.fval.extractLsb' 0 16 ≠ 0xFFFF#16
  /-- (f) IllegalCommand: a reserved word, zero-extended. -/
  illegal : b.fcause = 3#2 → b.fval.extractLsb' 8 24 = 0#24 ∧ ReservedWord (b.fval.extractLsb' 0 8)
  /-- (g) UnsupportedColor: a colour PAL does not hold now. -/
  unsupported : b.fcause = 1#2 → NotInPalette b b.fval

/-- The evidence of a fault is still in the block: the offending colour in COLOR, the incomplete mask in PVALID. The
spec says this by 10_state R17 with 40_register_access R69: the fault froze both registers. -/
structure FaultEvidenceInv (b : Block) : Prop where
  /-- UnsupportedColor: FVAL is COLOR, which no entry of PAL equals. -/
  unsupported : b.fcause = 1#2 → b.fval = b.color ∧ NotInPalette b b.color
  /-- MalformedBuffer: FVAL is PVALID, which is incomplete. -/
  malformed : b.fcause = 2#2 → b.fval = b.pvalid.setWidth 32 ∧ b.pvalid ≠ 0xFFFF#16

/-- `s` is reached from `s₀` by steps of the block. -/
inductive Reaches (s₀ : State) : State → Prop where
  | refl : Reaches s₀ s₀
  | step {s t : State} (h : Reaches s₀ s) (e : step s = .next t) : Reaches s₀ t

end Sys2Proof.Machine
end

