-- ==== Sys2Proof/Certificates/Slice0/Obligations.lean ====
section
/-!
DEFINITION. The statements for the provers, from the numbered rules of spec/. Each says whom it binds: every state,
every operand, every form the spec gives the instruction.
-/

open Sys2Proof Sys2Proof.Machine

/-! ### Encoding and decoding -/

/-- 30_encoding R55: the opcode map as match and mask, for every word and every position, and the two rows of port
accesses, for every descriptor byte. -/
def Obligations.CommandWordSelectsItsRow : Prop :=
  (∀ (d : BitVec 8) (v : PortWord),
    (d &&& 0x80#8 = 0x00#8 → accessOf d v = .read (d.extractLsb' 0 7)) ∧
    (d &&& 0x80#8 = 0x80#8 → accessOf d v = .write (d.extractLsb' 0 7) v)) ∧
  ∀ w : CmdWord,
    (decodeCommand w = .ok .pack ↔ w &&& 0xFF#8 = 0x01#8) ∧
    (decodeCommand w = .ok .unpack ↔ w &&& 0xFF#8 = 0x02#8) ∧
    (decodeCommand w = .ok .srst ↔ w &&& 0xFF#8 = 0x3F#8) ∧
    (∀ p, decodeCommand w = .ok (.quant p) ↔ w &&& 0xC0#8 = 0x40#8 ∧ p = w.extractLsb' 0 6) ∧
    (∀ p, decodeCommand w = .ok (.qpad p) ↔ w &&& 0xC0#8 = 0x80#8 ∧ p = w.extractLsb' 0 6) ∧
    (∀ p, decodeCommand w = .ok (.deq p) ↔ w &&& 0xC0#8 = 0xC0#8 ∧ p = w.extractLsb' 0 6) ∧
    (decodeCommand w = .error (.reservedWord w) ↔ ReservedWord w) ∧
    (ReservedWord w ↔ ¬(w &&& 0xFF#8 = 0x01#8 ∨ w &&& 0xFF#8 = 0x02#8 ∨ w &&& 0xFF#8 = 0x3F#8 ∨
      w &&& 0xC0#8 = 0x40#8 ∨ w &&& 0xC0#8 = 0x80#8 ∨ w &&& 0xC0#8 = 0xC0#8))

/-- 30_encoding R54: p = 8*row + col, row = p div 8, col = p mod 8. -/
def Obligations.PositionIsRowTimesEightPlusColumn : Prop :=
  (∀ row col : BitVec 3, (posOf row col).toNat = 8 * row.toNat + col.toNat) ∧
  (∀ p : Pos, (posRow p).toNat = p.toNat / 8 ∧ (posCol p).toNat = p.toNat % 8 ∧ posOf (posRow p) (posCol p) = p)

/-- A few words written out from 30_encoding R55 and descriptors from R53 (95 V71, V73 to V75, V78). -/
def Obligations.SampleWordsDecode : Prop :=
  decodeCommand 0b00000001#8 = .ok .pack ∧ decodeCommand 0b00000010#8 = .ok .unpack ∧
  decodeCommand 0b00111111#8 = .ok .srst ∧ decodeCommand 0b01001010#8 = .ok (.quant 10#6) ∧
  decodeCommand 0b10010011#8 = .ok (.qpad 19#6) ∧ decodeCommand 0b11111000#8 = .ok (.deq 56#6) ∧
  decode (accessOf 0b00000001#8 0#32) = .ok (.rd 0x01#7) ∧
  decode (accessOf 0b10001011#8 0x112233FF#32) = .ok (.wr 0x0B#7 0x112233FF#32) ∧
  descriptorOf (.write 0x7F#7 2#32) = 0xFF#8 ∧ descriptorOf (.read 0x7F#7) = 0x7F#8

/-- Decoding the access that issues a well-formed instruction gives the instruction back, with every operand at every
value; a WR to CMD of a defined word comes back under the command's own name (30_encoding R58; log entry 8). -/
def Obligations.DecodeOfEncodeReturnsInstr : Prop :=
  (∀ i : Instr, WellFormed i → decode (encode i) = .ok (canonicalInstr i)) ∧
  (∀ i : Instr, (∀ v, i ≠ .wr 0x00#7 v) → canonicalInstr i = i) ∧
  (∀ w : CmdWord, ReservedWord w → canonicalInstr (.wr 0x00#7 (w.setWidth 32)) = .wr 0x00#7 (w.setWidth 32)) ∧
  (∀ i : Instr, ∀ w, encodeCommand i = some w → canonicalInstr (.wr 0x00#7 (w.setWidth 32)) = i)

/-- What decodes is well-formed, and encoding it gives the same access back: no bit of an access is dropped. -/
def Obligations.EncodeOfDecodeReturnsAccess : Prop :=
  ∀ (a : Access) (i : Instr), decode a = .ok i → WellFormed i ∧ encode i = a

/-- The descriptor byte spells direction and number, and the data comes with it (30_encoding R53). -/
def Obligations.DescriptorSpellsAccess : Prop :=
  ∀ (rn : RegNum) (v : PortWord),
    accessOf (descriptorOf (.read rn)) v = .read rn ∧ accessOf (descriptorOf (.write rn v)) v = .write rn v ∧
    (descriptorOf (.read rn)).toNat = rn.toNat ∧ (descriptorOf (.write rn v)).toNat = 0x80 + rn.toNat

/-! ### Steps and reset -/

/-- 20_memory R40, R42: the oldest access on the port is performed as one step, and what it decodes to is what runs. -/
def Obligations.StepRunsDecodedInstr : Prop :=
  ∀ (s : State) (a : Access) (rest : List HostEvent) (i : Instr),
    s.port = .access a :: rest → decode a = .ok i → WellFormed i ∧ step s = exec i { s with port := rest }

/-- 60_exceptions R147: with nothing issued the block is idle and loses nothing (log entry 3: the model's idle step). -/
def Obligations.IdleStepKeepsState : Prop :=
  ∀ s : State, s.port = [] → step s = .next s

/-- 70 R150: the reset input gives every register its reset value, whatever state the block was in. -/
def Obligations.ResetInputResetsBlock : Prop :=
  ∀ (s : State) (rest : List HostEvent), s.port = .resetInput :: rest →
    step s = .next { block := State.reset.block, port := rest, returned := s.returned }

/-- 10_state R23: the values after reset. -/
def Obligations.ResetLeavesResetValues : Prop :=
  State.reset.block.palAt 0#2 = 0xFFFFFFFF#32 ∧ State.reset.block.palAt 1#2 = 0xAAAAAAFF#32 ∧
  State.reset.block.palAt 2#2 = 0x555555FF#32 ∧ State.reset.block.palAt 3#2 = 0x000000FF#32 ∧
  State.reset.block.color = 0#32 ∧ (∀ p, State.reset.block.idxAt p = 0#2) ∧
  (∀ j, State.reset.block.plnAt j = 0#8) ∧ State.reset.block.pvalid = 0#16 ∧ State.reset.block.fcause = 0#2 ∧
  State.reset.block.fval = 0#32 ∧ State.reset.block.fpos = 0#6

/-! ### The register port -/

/-- 40 R67, R68, 20_memory R32: RD of each register gives its value at its width and changes nothing, ready or faulted;
a reserved number is refused. The value is appended to the model's own list of returned values (log entry 2). -/
def Obligations.ReadReturnsRegisterAtItsWidth : Prop :=
  ∀ s : State,
    (exec (.rd 0x00#7) s = .next { s with returned := s.returned ++ [⟨8, 0#32⟩] }) ∧
    (exec (.rd 0x01#7) s = .next { s with returned := s.returned ++ [⟨2, s.block.fcause.setWidth 32⟩] }) ∧
    (exec (.rd 0x02#7) s = .next { s with returned := s.returned ++ [⟨32, s.block.fval⟩] }) ∧
    (exec (.rd 0x03#7) s = .next { s with returned := s.returned ++ [⟨6, s.block.fpos.setWidth 32⟩] }) ∧
    (exec (.rd 0x04#7) s = .next { s with returned := s.returned ++ [⟨16, s.block.pvalid.setWidth 32⟩] }) ∧
    (exec (.rd 0x05#7) s = .next { s with returned := s.returned ++ [⟨32, s.block.color⟩] }) ∧
    (∀ j : BitVec 2, exec (.rd (0x08#7 + j.setWidth 7)) s =
      .next { s with returned := s.returned ++ [⟨32, s.block.pal[j.toNat]'j.isLt⟩] }) ∧
    (∀ j : BitVec 4, exec (.rd (0x10#7 + j.setWidth 7)) s =
      .next { s with returned := s.returned ++ [⟨8, (s.block.pln[j.toNat]'j.isLt).setWidth 32⟩] }) ∧
    (∀ p : BitVec 6, exec (.rd (0x40#7 + p.setWidth 7)) s =
      .next { s with returned := s.returned ++ [⟨2, (s.block.idx[p.toNat]'p.isLt).setWidth 32⟩] }) ∧
    (∀ rn : RegNum, ReservedNumber rn → exec (.rd rn) s = .refused (.reservedRegister rn))

/-- 20_memory R41: a read has no side effect, and a second read of the same register returns the same value. -/
def Obligations.ReadTwiceReturnsSameValue : Prop :=
  ∀ (rn : RegNum) (s t : State), exec (.rd rn) s = .next t →
    t.block = s.block ∧ t.port = s.port ∧
    ∃ v, t.returned = s.returned ++ [v] ∧ exec (.rd rn) t = .next { t with returned := t.returned ++ [v] }

/-- 40 R61: WR to PAL[j] when ready writes that entry and nothing else. -/
def Obligations.WritePaletteEntryWhenReady : Prop :=
  ∀ (s : State) (j : BitVec 2) (v : BitVec 32), s.block.fcause = 0#2 →
    exec (.wr (0x08#7 + j.setWidth 7) v) s =
      .next { s with block := { s.block with pal := s.block.pal.set j.toNat v j.isLt } }

/-- 40 R62: WR to COLOR when ready writes COLOR, whatever the colour, and nothing else. -/
def Obligations.WriteColorWhenReady : Prop :=
  ∀ (s : State) (v : BitVec 32), s.block.fcause = 0#2 →
    exec (.wr 0x05#7 v) s = .next { s with block := { s.block with color := v } }

/-- 40 R63: WR to IDX[p] when ready writes that cell and nothing else, PLN and PVALID included. -/
def Obligations.WriteCellWhenReady : Prop :=
  ∀ (s : State) (p : BitVec 6) (v : BitVec 2), s.block.fcause = 0#2 →
    exec (.wr (0x40#7 + p.setWidth 7) (v.setWidth 32)) s =
      .next { s with block := { s.block with idx := s.block.idx.set p.toNat v p.isLt } }

/-- 40 R64: WR to PLN[j] when ready writes that byte and sets PVALID[j]; the other fifteen bits keep their values. -/
def Obligations.WritePlaneByteWhenReady : Prop :=
  ∀ (s : State) (j : BitVec 4) (v : BitVec 8), s.block.fcause = 0#2 →
    ∃ m : BitVec 16,
      (∀ k : BitVec 4, m.getLsbD k.toNat = if k = j then true else s.block.pvalid.getLsbD k.toNat) ∧
      exec (.wr (0x10#7 + j.setWidth 7) (v.setWidth 32)) s =
        .next { s with block := { s.block with pln := s.block.pln.set j.toNat v j.isLt, pvalid := m } }

/-- 40 R66: WR to FCAUSE, FVAL, FPOS or PVALID changes nothing, ready or faulted, whatever the value. -/
def Obligations.ReadOnlyRegistersIgnoreWrites : Prop :=
  ∀ s : State,
    (∀ v : BitVec 2, exec (.wr 0x01#7 (v.setWidth 32)) s = .next s) ∧
    (∀ v : BitVec 32, exec (.wr 0x02#7 v) s = .next s) ∧
    (∀ v : BitVec 6, exec (.wr 0x03#7 (v.setWidth 32)) s = .next s) ∧
    (∀ v : BitVec 16, exec (.wr 0x04#7 (v.setWidth 32)) s = .next s)

/-- 40 R69: WR to COLOR, PAL[j], PLN[j] or IDX[p] when faulted changes nothing. -/
def Obligations.FaultedBlockIgnoresDataWrites : Prop :=
  ∀ s : State, s.block.fcause ≠ 0#2 →
    (∀ v : BitVec 32, exec (.wr 0x05#7 v) s = .next s) ∧
    (∀ (j : BitVec 2) (v : BitVec 32), exec (.wr (0x08#7 + j.setWidth 7) v) s = .next s) ∧
    (∀ (j : BitVec 4) (v : BitVec 8), exec (.wr (0x10#7 + j.setWidth 7) (v.setWidth 32)) s = .next s) ∧
    (∀ (p : BitVec 6) (v : BitVec 2), exec (.wr (0x40#7 + p.setWidth 7) (v.setWidth 32)) s = .next s)

/-- 40 R65: WR to CMD performs the command its word encodes, with the gate on FCAUSE; a reserved word raises
IllegalCommand when ready and is ignored when faulted. -/
def Obligations.CommandWritePerformsCommand : Prop :=
  ∀ (s : State) (w : CmdWord),
    (s.block.fcause ≠ 0#2 → w ≠ 0x3F#8 → exec (.wr 0x00#7 (w.setWidth 32)) s = .next s) ∧
    (w = 0x3F#8 → exec (.wr 0x00#7 (w.setWidth 32)) s = exec .srst s) ∧
    (s.block.fcause = 0#2 →
      (w = 0x01#8 → exec (.wr 0x00#7 (w.setWidth 32)) s = exec .pack s) ∧
      (w = 0x02#8 → exec (.wr 0x00#7 (w.setWidth 32)) s = exec .unpack s) ∧
      (w.extractLsb' 6 2 = 0b01#2 → exec (.wr 0x00#7 (w.setWidth 32)) s = exec (.quant (w.extractLsb' 0 6)) s) ∧
      (w.extractLsb' 6 2 = 0b10#2 → exec (.wr 0x00#7 (w.setWidth 32)) s = exec (.qpad (w.extractLsb' 0 6)) s) ∧
      (w.extractLsb' 6 2 = 0b11#2 → exec (.wr 0x00#7 (w.setWidth 32)) s = exec (.deq (w.extractLsb' 0 6)) s) ∧
      (ReservedWord w → exec (.wr 0x00#7 (w.setWidth 32)) s =
        .next { s with block := { s.block with fcause := 3#2, fval := w.setWidth 32, fpos := 0#6 } }))

/-- An instruction and the name the decoder gives it have the same effect: a WR to CMD of a defined word is its command
(40 R65; log entry 8). -/
def Obligations.CanonicalInstrHasSameEffect : Prop :=
  ∀ (i : Instr) (s : State), WellFormed i → exec (canonicalInstr i) s = exec i s

/-- 20_memory R45: an access to a reserved register number has no step, as an instruction and on the port. -/
def Obligations.ReservedNumberHasNoStep : Prop :=
  ∀ (s : State) (rn : RegNum) (v : PortWord) (rest : List HostEvent), ReservedNumber rn →
    exec (.rd rn) s = .refused (.reservedRegister rn) ∧ exec (.wr rn v) s = .refused (.reservedRegister rn) ∧
    (s.port = .access (.read rn) :: rest → step s = .refused (.reservedRegister rn)) ∧
    (s.port = .access (.write rn v) :: rest → step s = .refused (.reservedRegister rn))

/-- A well-formed instruction always completes with a next state, in every state of the block; an ill-formed one is
refused, and no instruction stops with a fault (48 R126, R128). -/
def Obligations.WellFormedInstrAlwaysCompletes : Prop :=
  ∀ (i : Instr) (s : State),
    (WellFormed i → ∃ t, exec i s = .next t ∧ t.port = s.port) ∧
    (¬ WellFormed i → ∃ r, exec i s = .refused r)

/-- 20_memory R41: a WR of the same value twice to PAL, COLOR, IDX or PLN leaves the same state as one. -/
def Obligations.SameDataWriteTwiceIsOnce : Prop :=
  ∀ (rn : RegNum) (v : PortWord) (s t : State), rn ≠ 0x00#7 → exec (.wr rn v) s = .next t →
    exec (.wr rn v) t = .next t

/-- 20_memory R42: an RD returns what the latest WR left; a write leaves every other register as it was, but for
PVALID. -/
def Obligations.ReadReturnsLatestWrite : Prop :=
  ∀ (r : Reg) (v : PortWord) (s t : State), s.block.fcause = 0#2 → r ≠ .cmd →
    exec (.wr (numOfReg r) v) s = .next t →
    ((r = .color ∨ (∃ j, r = .pal j) ∨ (∃ j, r = .pln j) ∨ ∃ p, r = .idx p) →
      exec (.rd (numOfReg r)) t = .next { t with returned := t.returned ++ [⟨regWidth r, v⟩] }) ∧
    (∀ q : Reg, q ≠ r → q ≠ .pvalid →
      ∃ x, exec (.rd (numOfReg q)) s = .next { s with returned := s.returned ++ [x] } ∧
        exec (.rd (numOfReg q)) t = .next { t with returned := t.returned ++ [x] })

/-! ### The quantizer -/

/-- 41 R70, R73, R74: QUANT p on a ready block writes the lowest matching position into cell p and nothing else, or
takes the UnsupportedColor fault, which changes only the fault registers, exactly when no entry equals COLOR in all 32
bits. -/
def Obligations.QuantWritesLowestMatchOrFaults : Prop :=
  ∀ (s : State) (p : Pos), s.block.fcause = 0#2 →
    (∀ j, LowestMatch s.block s.block.color j →
      exec (.quant p) s = .next { s with block := { s.block with idx := s.block.idx.set p.toNat j p.isLt } }) ∧
    (NotInPalette s.block s.block.color →
      exec (.quant p) s =
        .next { s with block := { s.block with fcause := 1#2, fval := s.block.color, fpos := p } }) ∧
    ((∃ j, LowestMatch s.block s.block.color j) ∨ NotInPalette s.block s.block.color)

/-- 41 R71: QPAD p on a ready block writes 0 into cell p and nothing else, whatever COLOR and PAL hold. -/
def Obligations.QpadWritesZeroCell : Prop :=
  ∀ (s : State) (p : Pos), s.block.fcause = 0#2 →
    exec (.qpad p) s = .next { s with block := { s.block with idx := s.block.idx.set p.toNat 0#2 p.isLt } }

/-- 41 R72: DEQ p on a ready block writes PAL[IDX[p]] into COLOR and nothing else. -/
def Obligations.DeqLoadsPaletteColor : Prop :=
  ∀ (s : State) (p : Pos) (i : Index), s.block.fcause = 0#2 → s.block.idx[p.toNat]'p.isLt = i →
    exec (.deq p) s = .next { s with block := { s.block with color := s.block.pal[i.toNat]'i.isLt } }

/-- 41 R75 (a): after DEQ p, QUANT p does not fault and leaves in cell p the lowest position that holds the same colour,
which is the index it held when the entries are distinct; no other cell changes. -/
def Obligations.DeqThenQuantReturnsIndex : Prop :=
  ∀ (s : State) (p : Pos), s.block.fcause = 0#2 →
    ∃ t u j, exec (.deq p) s = .next t ∧ exec (.quant p) t = .next u ∧ u.block.fcause = 0#2 ∧
      LowestMatch s.block (s.block.palAt (s.block.idxAt p)) j ∧
      u.block.idx = s.block.idx.set p.toNat j p.isLt ∧
      ((∀ a b, s.block.palAt a = s.block.palAt b → a = b) → u.block.idx = s.block.idx)

/-- 41 R75 (b): after a successful QUANT p, DEQ p leaves COLOR as it was. -/
def Obligations.QuantThenDeqKeepsColor : Prop :=
  ∀ (s t : State) (p : Pos), s.block.fcause = 0#2 → exec (.quant p) s = .next t → t.block.fcause = 0#2 →
    ∃ u, exec (.deq p) t = .next u ∧ u.block = t.block ∧ u.block.color = s.block.color

/-- 41 R75 (c): two palettes with the same four distinct colours in different orders give different colours for some
index held by a cell. -/
def Obligations.PaletteOrderChangesColors : Prop :=
  ∀ (s t : State) (p : Pos), s.block.fcause = 0#2 → t.block.fcause = 0#2 →
    s.block.pal.toList.Perm t.block.pal.toList → s.block.pal ≠ t.block.pal →
    ∃ (i : Index) (u v : State),
      exec (.deq p) { s with block := { s.block with idx := s.block.idx.set p.toNat i p.isLt } } = .next u ∧
      exec (.deq p) { t with block := { t.block with idx := t.block.idx.set p.toNat i p.isLt } } = .next v ∧
      u.block.color ≠ v.block.color

/-! ### The packer and the unpacker -/

/-- 42 R80, R81: PACK on a ready block copies bit b of cell 8k+c to bit 7-c of byte 2k+b, sets all of PVALID and
changes nothing else. -/
def Obligations.PackCopiesEveryBit : Prop :=
  ∀ s : State, s.block.fcause = 0#2 →
    ∃ q : Planar,
      (∀ k c : Fin 8,
        q[2 * k.val].getLsbD (7 - c.val) = s.block.idx[8 * k.val + c.val].getLsbD 0 ∧
        q[2 * k.val + 1].getLsbD (7 - c.val) = s.block.idx[8 * k.val + c.val].getLsbD 1) ∧
      exec .pack s = .next { s with block := { s.block with pln := q, pvalid := 0xFFFF#16 } }

/-- 43 R85, R86: UNPACK on a ready block with all sixteen bytes supplied makes cell 8k+c the two bits
(high[7-c], low[7-c]) of bytes 2k+1 and 2k, clears PVALID and changes nothing else; with a byte missing it takes the
MalformedBuffer fault, which changes only the fault registers. -/
def Obligations.UnpackCopiesEveryBitOrFaults : Prop :=
  ∀ s : State, s.block.fcause = 0#2 →
    (s.block.pvalid = 0xFFFF#16 →
      ∃ x : Tile,
        (∀ k c : Fin 8, x[8 * k.val + c.val].toNat =
          (s.block.pln[2 * k.val].getLsbD (7 - c.val)).toNat +
            2 * (s.block.pln[2 * k.val + 1].getLsbD (7 - c.val)).toNat) ∧
        exec .unpack s = .next { s with block := { s.block with idx := x, pvalid := 0x0000#16 } }) ∧
    (s.block.pvalid ≠ 0xFFFF#16 →
      exec .unpack s =
        .next { s with block := { s.block with fcause := 2#2, fval := s.block.pvalid.setWidth 32, fpos := 0#6 } })

/-- 42 R82 (a): PACK then UNPACK on a ready block leaves IDX as it was, PLN its packing and PVALID clear, with no
fault. -/
def Obligations.PackThenUnpackKeepsTile : Prop :=
  ∀ s : State, s.block.fcause = 0#2 →
    ∃ t, exec .pack s = .next t ∧
      exec .unpack t = .next { t with block := { t.block with idx := s.block.idx, pvalid := 0x0000#16 } } ∧
      t.block.fcause = 0#2

/-- 43 R87 (a): a successful UNPACK then PACK leaves the sixteen bytes as they were and PVALID = 0xFFFF. -/
def Obligations.UnpackThenPackKeepsBytes : Prop :=
  ∀ s : State, s.block.fcause = 0#2 → s.block.pvalid = 0xFFFF#16 →
    ∃ t, exec .unpack s = .next t ∧
      exec .pack t = .next { t with block := { t.block with pln := s.block.pln, pvalid := 0xFFFF#16 } }

/-- 42 R82 (b): packing is a bijection between tiles and sixteen-byte groups. -/
def Obligations.PackingIsBijective : Prop :=
  ∀ (s : State), s.block.fcause = 0#2 → ∀ q : Planar, ∃! x : Tile,
    exec .pack { s with block := { s.block with idx := x } } =
      .next { s with block := { s.block with idx := x, pln := q, pvalid := 0xFFFF#16 } }

/-- 43 R87 (d): where the two planes of every row are equal, UNPACK gives only indices 0 and 3. -/
def Obligations.EqualPlanesUnpackToZeroOrThree : Prop :=
  ∀ s : State, s.block.fcause = 0#2 → s.block.pvalid = 0xFFFF#16 →
    (∀ k : Fin 8, s.block.pln[2 * k.val] = s.block.pln[2 * k.val + 1]) →
    ∃ t, exec .unpack s = .next t ∧ ∀ p : Pos, t.block.idxAt p = 0#2 ∨ t.block.idxAt p = 3#2

/-- 43 R87 (c): what UNPACK produces depends on PLN alone. -/
def Obligations.UnpackedCellsDependOnBytesOnly : Prop :=
  ∀ s t : State, s.block.fcause = 0#2 → t.block.fcause = 0#2 → s.block.pvalid = 0xFFFF#16 →
    t.block.pvalid = 0xFFFF#16 → s.block.pln = t.block.pln →
    ∃ u v, exec .unpack s = .next u ∧ exec .unpack t = .next v ∧ u.block.idx = v.block.idx

/-! ### SRST and the faulted state -/

/-- 44 R90: SRST gives every register its reset value, ready or faulted; the host's side of the port is the model's own
and is not touched. -/
def Obligations.SrstRestoresResetValues : Prop :=
  ∀ s : State, exec .srst s =
    .next { s with
      block :=
        { pal := #v[0xFFFFFFFF#32, 0xAAAAAAFF#32, 0x555555FF#32, 0x000000FF#32]
          color := 0#32
          idx := Vector.replicate 64 0#2
          pln := Vector.replicate 16 0#8
          pvalid := 0#16
          fcause := 0#2
          fval := 0#32
          fpos := 0#6 } }

/-- 60 R138: on a faulted block every command but SRST and every write is ignored with nothing changed, every read works
as on a ready one, and SRST is performed; no form is left out, and the state is no good end of a run. -/
def Obligations.FaultedBlockOnlyPerformsSrst : Prop :=
  ∀ (s : State) (i : Instr), s.block.fcause ≠ 0#2 → WellFormed i →
    (canonicalInstr i = .srst → exec i s = .next { s with block := State.reset.block }) ∧
    (∀ rn, i = .rd rn → ∃ r, regOfNum rn = some r ∧
      exec i s = .next { s with returned := s.returned ++ [⟨regWidth r, s.block.readReg r⟩] }) ∧
    (canonicalInstr i ≠ .srst → (∀ rn, i ≠ .rd rn) → exec i s = .next s) ∧ ¬ GoodEnd s

/-- 60 R139: a step that leaves the faulted state is the reset input or SRST; both restore the whole reset state and
lose the fault record. -/
def Obligations.OnlyResetLeavesFaultedState : Prop :=
  ∀ s : State, s.block.fcause ≠ 0#2 →
    (∀ t, step s = .next t → t.block.fcause = 0#2 →
      s.port = .resetInput :: t.port ∨ s.port = .access (.write 0x00#7 0x3F#32) :: t.port) ∧
    (∀ rest, s.port = .resetInput :: rest ∨ s.port = .access (.write 0x00#7 0x3F#32) :: rest →
      step s = .next { block := State.reset.block, port := rest, returned := s.returned })

/-- 60 R140: no step from a faulted state changes the record of the first fault, but a reset, which clears it. -/
def Obligations.FaultRecordIsNeverOverwritten : Prop :=
  ∀ s t : State, s.block.fcause ≠ 0#2 → step s = .next t →
    t.block = s.block ∨ t.block = State.reset.block

/-- 60 R130, R137: an instruction that turns a ready block into a faulted one does so in one of three ways: QUANT of a
colour PAL does not hold, UNPACK with a byte missing, or a reserved word written to CMD; each of the three does so and
changes nothing but the fault registers; and no instruction raises a fault on a faulted block. -/
def Obligations.OnlyThreeFaultsAndPrecise : Prop :=
  ∀ s : State,
    (s.block.fcause = 0#2 → ∀ (i : Instr) (t : State), exec i s = .next t → t.block.fcause ≠ 0#2 →
      (∃ p, canonicalInstr i = .quant p ∧ NotInPalette s.block s.block.color ∧
        t = { s with block := { s.block with fcause := 1#2, fval := s.block.color, fpos := p } }) ∨
      (canonicalInstr i = .unpack ∧ s.block.pvalid ≠ 0xFFFF#16 ∧
        t = { s with block := { s.block with fcause := 2#2, fval := s.block.pvalid.setWidth 32, fpos := 0#6 } }) ∨
      (∃ w : CmdWord, i = .wr 0x00#7 (w.setWidth 32) ∧ ReservedWord w ∧
        t = { s with block := { s.block with fcause := 3#2, fval := w.setWidth 32, fpos := 0#6 } })) ∧
    (s.block.fcause = 0#2 →
      (∀ p, NotInPalette s.block s.block.color → exec (.quant p) s =
        .next { s with block := { s.block with fcause := 1#2, fval := s.block.color, fpos := p } }) ∧
      (s.block.pvalid ≠ 0xFFFF#16 → exec .unpack s =
        .next { s with block := { s.block with fcause := 2#2, fval := s.block.pvalid.setWidth 32, fpos := 0#6 } }) ∧
      (∀ w : CmdWord, ReservedWord w → exec (.wr 0x00#7 (w.setWidth 32)) s =
        .next { s with block := { s.block with fcause := 3#2, fval := w.setWidth 32, fpos := 0#6 } })) ∧
    (s.block.fcause ≠ 0#2 → ∀ (i : Instr) (t : State), exec i s = .next t → t.block.fcause ≠ 0#2 → t.block = s.block)

/-- 30_encoding R56, 60 R133: the 61 reserved words, and what writing one does on a ready and on a faulted block. -/
def Obligations.ReservedWordRaisesIllegalCommand : Prop :=
  ((List.range 256).filter fun n => decide (ReservedWord (BitVec.ofNat 8 n))).length = 61 ∧
  ∀ (s : State) (w : CmdWord), ReservedWord w →
    (s.block.fcause = 0#2 → exec (.wr 0x00#7 (w.setWidth 32)) s =
      .next { s with block := { s.block with fcause := 3#2, fval := w.setWidth 32, fpos := 0#6 } }) ∧
    (s.block.fcause ≠ 0#2 → exec (.wr 0x00#7 (w.setWidth 32)) s = .next s)

/-! ### Invariants and whole-machine rules -/

/-- The reset state meets the invariant of 10_state R24. -/
def Obligations.ResetMeetsFaultRecordInvariant : Prop :=
  FaultRecordInv State.reset.block ∧ FaultEvidenceInv State.reset.block

/-- Every step keeps clauses (c) to (g) of 10_state R24, from every state that meets them. -/
def Obligations.StepKeepsFaultRecordInvariant : Prop :=
  ∀ s t : State, FaultRecordInv s.block → step s = .next t → FaultRecordInv t.block

/-- Every step keeps the evidence of a fault in the block: COLOR and PAL of an UnsupportedColor, PVALID of a
MalformedBuffer, are frozen with the record (10_state R17, 40 R69). -/
def Obligations.StepKeepsFaultEvidence : Prop :=
  ∀ s t : State, FaultEvidenceInv s.block → step s = .next t → FaultEvidenceInv t.block

/-- 10_state R24: whatever the host issues from reset on, the invariant holds in every state reached. -/
def Obligations.ReachableStatesMeetFaultRecordInvariant : Prop :=
  ∀ (events : List HostEvent) (t : State), Reaches { State.reset with port := events } t →
    FaultRecordInv t.block ∧ FaultEvidenceInv t.block ∧ (∀ p, (t.block.idxAt p).toNat ≤ 3)

/-- 10_state R10 (the column "written by"), R11, R15: what can change each register, for every instruction. -/
def Obligations.OnlyListedInstrsWriteEachRegister : Prop :=
  ∀ (i : Instr) (s t : State), exec i s = .next t → canonicalInstr i ≠ .srst →
    (t.port = s.port) ∧
    (t.returned ≠ s.returned → ∃ rn, i = .rd rn) ∧
    (∀ j, t.block.palAt j ≠ s.block.palAt j → ∃ v, i = .wr (0x08#7 + j.setWidth 7) v) ∧
    (t.block.color ≠ s.block.color → (∃ p, canonicalInstr i = .deq p) ∨ ∃ v, i = .wr 0x05#7 v) ∧
    (∀ p, t.block.idxAt p ≠ s.block.idxAt p →
      canonicalInstr i = .quant p ∨ canonicalInstr i = .qpad p ∨ canonicalInstr i = .unpack ∨
        ∃ v, i = .wr (0x40#7 + p.setWidth 7) v) ∧
    (∀ j, t.block.plnAt j ≠ s.block.plnAt j →
      canonicalInstr i = .pack ∨ ∃ v, i = .wr (0x10#7 + j.setWidth 7) v) ∧
    (∀ j : BitVec 4, t.block.pvalid.getLsbD j.toNat ≠ s.block.pvalid.getLsbD j.toNat →
      canonicalInstr i = .pack ∨ canonicalInstr i = .unpack ∨ ∃ v, i = .wr (0x10#7 + j.setWidth 7) v) ∧
    ((t.block.fcause, t.block.fval, t.block.fpos) ≠ (s.block.fcause, s.block.fval, s.block.fpos) →
      (∃ p, canonicalInstr i = .quant p) ∨ canonicalInstr i = .unpack ∨
        ∃ w : CmdWord, ReservedWord w ∧ i = .wr 0x00#7 (w.setWidth 32))

/-- 10_state R10, R21: nothing but the block and what the host issues decides a step. What earlier reads returned (the
model's own list, log entry 2) has no effect on it. -/
def Obligations.EarlierReadsDoNotAffectSteps : Prop :=
  ∀ (s t : State) (r : List ReadValue), step s = .next t →
    ∃ new : List ReadValue, t.returned = s.returned ++ new ∧
      step { s with returned := r } = .next { t with returned := r ++ new }

/-! ### The host-side procedures -/

/-- 48 R100 to R103: the normalised palette. -/
def Obligations.NormalisedPaletteHasFourEntries : Prop :=
  normalisePalette none = some [0xFFFFFFFF#32, 0xAAAAAAFF#32, 0x555555FF#32, 0x000000FF#32] ∧
  ∀ given : List Color,
    (given = [] → normalisePalette (some given) = normalisePalette none) ∧
    (1 ≤ given.length → given.length ≤ 4 →
      normalisePalette (some given) =
        some (given ++ (([0xFFFFFFFF#32, 0x000000FF#32, 0x555555FF#32, 0xAAAAAAFF#32] : List Color).filter
          (fun r => decide (r ∉ given))).take (4 - given.length))) ∧
    (4 < given.length → normalisePalette (some given) = none) ∧
    (∀ q, normalisePalette (some given) = some q → q.length = 4)

/-- 48 R104 to R106: the padding of an axis, and that padding again adds nothing. -/
def Obligations.PaddingAlignsEachAxis : Prop :=
  ∀ size : Nat,
    (size % 8 = 0 → padAxis size = (0, 0)) ∧
    (size ≤ 8 → padAxis size = (0, 0)) ∧
    (size % 8 ≠ 0 → 8 < size →
      (padAxis size).1 + (padAxis size).2 = 8 - size % 8 ∧
      ((padAxis size).1 = (padAxis size).2 ∨ (padAxis size).1 = (padAxis size).2 + 1)) ∧
    (8 ≤ size → paddedSize size % 8 = 0 ∧ size ≤ paddedSize size ∧ paddedSize size < size + 8) ∧
    padAxis (paddedSize size) = (0, 0)

/-- 48 R107: which cells of the padded map are padding, and which pixel each other cell holds. -/
def Obligations.MapCellIsPaddingOrPixel : Prop :=
  ∀ (img : Image) (x y : Nat),
    let left := (padAxis img.width).1
    let top := (padAxis img.height).1
    ((x < left ∨ left + img.width ≤ x ∨ y < top ∨ top + img.height ≤ y) → mapCell img x y = none) ∧
    (∀ px py, px < img.width → py < img.height → wellShaped img = true →
      ∃ row c, img.rows[py]? = some row ∧ row[px]? = some c ∧ mapCell img (left + px) (top + py) = some c)

/-- 48 R122: narrow undoes widen; widen undoes narrow exactly where the bytes of every pair are equal. -/
def Obligations.NarrowUndoesWiden : Prop :=
  (∀ x : List PlaneByte, narrow (widen x) = some x) ∧
  (∀ b n : List PlaneByte, narrow b = some n →
    (widen n = b ↔ ∀ m, 2 * m + 1 < b.length → b[2 * m]? = b[2 * m + 1]?))

/-- 48 R111: an encode that succeeds gives sixteen bytes for each tile of the padded grid. -/
def Obligations.EncodedImageHasSixteenBytesPerTile : Prop :=
  ∀ (img : Image) (s : State) (out : List PlaneByte), encodeImage img s = .ok out →
    out.length = 16 * ((paddedSize img.width / 8) * (paddedSize img.height / 8)) ∧
    paddedSize img.width % 8 = 0 ∧ paddedSize img.height % 8 = 0

/-- 48 R115, R117: dimensions with both hints, with none, and what is invalid; a lone hint of zero or less, and any lone
hint with no tiles, is rejected before the open parameter is asked. -/
def Obligations.DimensionsFollowHints : Prop :=
  ∀ tileCount : Nat,
    (∀ w h : Int, 0 < w → 0 < h → dimensions tileCount (some w) (some h) = .ok (w.toNat, h.toNat)) ∧
    (∀ w h : Int, w ≤ 0 ∨ h ≤ 0 → dimensions tileCount (some w) (some h) = .error .invalidDimension) ∧
    (0 < tileCount → ∃ r, r * r ≤ tileCount ∧ tileCount < (r + 1) * (r + 1) ∧
      dimensions tileCount none none = .ok (8 * r, 8 * r)) ∧
    (tileCount = 0 → dimensions tileCount none none = .error .invalidDimension) ∧
    (∀ d : Int, d ≤ 0 ∨ tileCount = 0 → dimensions tileCount (some d) none = .error .invalidDimension ∧
      dimensions tileCount none (some d) = .error .invalidDimension)

/-- 48 R118, R119: pixel (X, y) of the reconstructed rows comes from cell (y mod 8)*8 + X mod 8 of tile
(y div 8)*tiles_per_row + X div 8; the rows are as many and as long as the rule says; and reconstruction fails exactly
when a tile the grid needs is missing. -/
def Obligations.ReconstructedPixelFollowsFormula : Prop :=
  ∀ (tiles : List (List Color)) (width height : Nat), (∀ x ∈ tiles, x.length = 64) →
    (∀ rows, rowsFrom tiles width 0 height = .ok rows →
      rows.length = height ∧
      ∀ y, y < height → ∃ row, rows[y]? = some row ∧ row.length = 8 * (width / 8) ∧
        ∀ x, x < 8 * (width / 8) → ∃ tile, tiles[y / 8 * (width / 8) + x / 8]? = some tile ∧
          row[x]? = tile[y % 8 * 8 + x % 8]?) ∧
    (rowsFrom tiles width 0 height = .error .malformedBuffer ↔
      ∃ y x, y < height ∧ x < 8 * (width / 8) ∧ tiles.length ≤ y / 8 * (width / 8) + x / 8) ∧
    ((∃ rows, rowsFrom tiles width 0 height = .ok rows) ∨ rowsFrom tiles width 0 height = .error .malformedBuffer)

/-- 48 R110 step 5, R109: a tile whose pixels all have a colour of PAL encodes to sixteen bytes, PLN[0] first, that hold
the lowest matching index of each pixel and 0 for each padding cell; the block ends ready with PAL as it was. -/
def Obligations.EncodedTileHoldsCellIndices : Prop :=
  ∀ (o : TileOrigin) (cells : List (Option Color)) (s : State), s.block.fcause = 0#2 → cells.length = 64 →
    (∀ c, some c ∈ cells → ∃ j, s.block.palAt j = c) →
    ∃ (t : State) (bytes : List PlaneByte), encodeTile o cells s = .ok (t, bytes) ∧ bytes.length = 16 ∧
      t.block.fcause = 0#2 ∧ t.block.pal = s.block.pal ∧
      ∀ k c : Fin 8, ∃ (cell : Option Color) (low high : PlaneByte) (i : Index),
        cells[8 * k.val + c.val]? = some cell ∧ bytes[2 * k.val]? = some low ∧ bytes[2 * k.val + 1]? = some high ∧
        i.getLsbD 0 = low.getLsbD (7 - c.val) ∧ i.getLsbD 1 = high.getLsbD (7 - c.val) ∧
        (cell = none → i = 0#2) ∧ (∀ colour, cell = some colour → LowestMatch s.block colour i)

/-- 48 R110, R124, R125: the first pixel of a tile whose colour PAL does not hold fails the conversion, with that colour
and that pixel's coordinates, and gives no bytes. The frame of the coordinates is the open parameter (log entry 10),
and they count from 0 (log entry 19). -/
def Obligations.UnsupportedPixelFailsTile : Prop :=
  ∀ (o : TileOrigin) (cells : List (Option Color)) (s : State) (p : Nat) (colour : Color), s.block.fcause = 0#2 →
    cells.length = 64 → cells[p]? = some (some colour) → NotInPalette s.block colour →
    (∀ q c, q < p → cells[q]? = some (some c) → ∃ j, s.block.palAt j = c) →
    encodeTile o cells s = .error (.unsupportedColor colour (reportCoords Config.coordOrigin o p))

/-- 48 R112: a stream with a trailing partial tile gives MalformedBufferError and no tile, and testing the length first
or feeding the stream as it comes gives the same outcome, for every stream and from every state of the block. -/
def Obligations.PartialStreamFailsBothWays : Prop :=
  ∀ (bs : List PlaneByte) (s : State),
    (bs.length % 16 ≠ 0 → decodeStream bs s = .error .malformedBuffer ∧ feedStream bs s = .error .malformedBuffer) ∧
    decodeStream bs s = feedStream bs s

/-- 48 R112 to R114: a whole stream decodes from every state of the block, and cell 8k+c of tile t is made of bit 7-c of
bytes 16t+2k and 16t+2k+1. -/
def Obligations.DecodedStreamFollowsBytes : Prop :=
  ∀ (bs : List PlaneByte) (s : State), bs.length % 16 = 0 →
    ∃ tiles, decodeStream bs s = .ok tiles ∧ tiles.length = bs.length / 16 ∧
      ∀ t, t < bs.length / 16 → ∃ tile, tiles[t]? = some tile ∧ tile.length = 64 ∧
        ∀ k c : Fin 8, ∃ (low high : PlaneByte) (i : Index),
          bs[16 * t + 2 * k.val]? = some low ∧ bs[16 * t + 2 * k.val + 1]? = some high ∧
          tile[8 * k.val + c.val]? = some i ∧
          i.toNat = (low.getLsbD (7 - c.val)).toNat + 2 * (high.getLsbD (7 - c.val)).toNat
end

