-- ==== Sys2Proof/Laws/State.lean ====
section
/-!
SUPPORT. What each update of the block does to each field, so that no proof unfolds a record update.
-/

namespace Sys2Proof.Machine

variable (b : Block)

/-! ### setPal -/

@[simp] theorem Block.setPal_pal (j : BitVec 2) (v : Color) : (b.setPal j v).pal = b.pal.set j.toNat v j.isLt := rfl
@[simp] theorem Block.setPal_color (j : BitVec 2) (v : Color) : (b.setPal j v).color = b.color := rfl
@[simp] theorem Block.setPal_idx (j : BitVec 2) (v : Color) : (b.setPal j v).idx = b.idx := rfl
@[simp] theorem Block.setPal_pln (j : BitVec 2) (v : Color) : (b.setPal j v).pln = b.pln := rfl
@[simp] theorem Block.setPal_pvalid (j : BitVec 2) (v : Color) : (b.setPal j v).pvalid = b.pvalid := rfl
@[simp] theorem Block.setPal_fcause (j : BitVec 2) (v : Color) : (b.setPal j v).fcause = b.fcause := rfl
@[simp] theorem Block.setPal_fval (j : BitVec 2) (v : Color) : (b.setPal j v).fval = b.fval := rfl
@[simp] theorem Block.setPal_fpos (j : BitVec 2) (v : Color) : (b.setPal j v).fpos = b.fpos := rfl

/-! ### setColor -/

@[simp] theorem Block.setColor_pal (v : Color) : (b.setColor v).pal = b.pal := rfl
@[simp] theorem Block.setColor_color (v : Color) : (b.setColor v).color = v := rfl
@[simp] theorem Block.setColor_idx (v : Color) : (b.setColor v).idx = b.idx := rfl
@[simp] theorem Block.setColor_pln (v : Color) : (b.setColor v).pln = b.pln := rfl
@[simp] theorem Block.setColor_pvalid (v : Color) : (b.setColor v).pvalid = b.pvalid := rfl
@[simp] theorem Block.setColor_fcause (v : Color) : (b.setColor v).fcause = b.fcause := rfl
@[simp] theorem Block.setColor_fval (v : Color) : (b.setColor v).fval = b.fval := rfl
@[simp] theorem Block.setColor_fpos (v : Color) : (b.setColor v).fpos = b.fpos := rfl

/-! ### setIdx -/

@[simp] theorem Block.setIdx_pal (p : Pos) (v : Index) : (b.setIdx p v).pal = b.pal := rfl
@[simp] theorem Block.setIdx_color (p : Pos) (v : Index) : (b.setIdx p v).color = b.color := rfl
@[simp] theorem Block.setIdx_idx (p : Pos) (v : Index) : (b.setIdx p v).idx = b.idx.set p.toNat v p.isLt := rfl
@[simp] theorem Block.setIdx_pln (p : Pos) (v : Index) : (b.setIdx p v).pln = b.pln := rfl
@[simp] theorem Block.setIdx_pvalid (p : Pos) (v : Index) : (b.setIdx p v).pvalid = b.pvalid := rfl
@[simp] theorem Block.setIdx_fcause (p : Pos) (v : Index) : (b.setIdx p v).fcause = b.fcause := rfl
@[simp] theorem Block.setIdx_fval (p : Pos) (v : Index) : (b.setIdx p v).fval = b.fval := rfl
@[simp] theorem Block.setIdx_fpos (p : Pos) (v : Index) : (b.setIdx p v).fpos = b.fpos := rfl

/-! ### supplyPln -/

@[simp] theorem Block.supplyPln_pal (j : BitVec 4) (v : PlaneByte) : (b.supplyPln j v).pal = b.pal := rfl
@[simp] theorem Block.supplyPln_color (j : BitVec 4) (v : PlaneByte) : (b.supplyPln j v).color = b.color := rfl
@[simp] theorem Block.supplyPln_idx (j : BitVec 4) (v : PlaneByte) : (b.supplyPln j v).idx = b.idx := rfl
@[simp] theorem Block.supplyPln_pln (j : BitVec 4) (v : PlaneByte) : (b.supplyPln j v).pln = b.pln.set j.toNat v j.isLt := rfl
@[simp] theorem Block.supplyPln_pvalid (j : BitVec 4) (v : PlaneByte) : (b.supplyPln j v).pvalid = pvalidSupply b.pvalid j := rfl
@[simp] theorem Block.supplyPln_fcause (j : BitVec 4) (v : PlaneByte) : (b.supplyPln j v).fcause = b.fcause := rfl
@[simp] theorem Block.supplyPln_fval (j : BitVec 4) (v : PlaneByte) : (b.supplyPln j v).fval = b.fval := rfl
@[simp] theorem Block.supplyPln_fpos (j : BitVec 4) (v : PlaneByte) : (b.supplyPln j v).fpos = b.fpos := rfl

/-! ### raiseFault -/

@[simp] theorem Block.raiseFault_pal (c : BitVec 2) (v : BitVec 32) (p : BitVec 6) : (b.raiseFault c v p).pal = b.pal := rfl
@[simp] theorem Block.raiseFault_color (c : BitVec 2) (v : BitVec 32) (p : BitVec 6) : (b.raiseFault c v p).color = b.color := rfl
@[simp] theorem Block.raiseFault_idx (c : BitVec 2) (v : BitVec 32) (p : BitVec 6) : (b.raiseFault c v p).idx = b.idx := rfl
@[simp] theorem Block.raiseFault_pln (c : BitVec 2) (v : BitVec 32) (p : BitVec 6) : (b.raiseFault c v p).pln = b.pln := rfl
@[simp] theorem Block.raiseFault_pvalid (c : BitVec 2) (v : BitVec 32) (p : BitVec 6) : (b.raiseFault c v p).pvalid = b.pvalid := rfl
@[simp] theorem Block.raiseFault_fcause (c : BitVec 2) (v : BitVec 32) (p : BitVec 6) : (b.raiseFault c v p).fcause = c := rfl
@[simp] theorem Block.raiseFault_fval (c : BitVec 2) (v : BitVec 32) (p : BitVec 6) : (b.raiseFault c v p).fval = v := rfl
@[simp] theorem Block.raiseFault_fpos (c : BitVec 2) (v : BitVec 32) (p : BitVec 6) : (b.raiseFault c v p).fpos = p := rfl

/-! ### doReset -/

@[simp] theorem Block.doReset_eq : b.doReset = Block.reset := rfl

end Sys2Proof.Machine
end

