-- ==== Sys2Proof/Laws/Ops.lean ====
section
/-!
SUPPORT. What each shared operation does, said once: the gate on FCAUSE, a step on the block, the register files,
the register map, PVALID, and taking the next event from the port.
-/

namespace Sys2Proof.Machine

/-! ### The gate on FCAUSE -/

theorem Block.whenReady_of_ready (f : Block → Block) {b : Block} (h : b.fcause = 0#2) : b.whenReady f = f b := by
  simp [Block.whenReady, Block.faulted, h]

theorem Block.whenReady_of_faulted (f : Block → Block) {b : Block} (h : b.fcause ≠ 0#2) : b.whenReady f = b := by
  simp [Block.whenReady, Block.faulted, h]

/-- All the gate can do: the effect on a ready block, nothing on a faulted one. -/
theorem Block.whenReady_cases (f : Block → Block) (b : Block) :
    (b.fcause = 0#2 ∧ b.whenReady f = f b) ∨ (b.fcause ≠ 0#2 ∧ b.whenReady f = b) := by
  by_cases h : b.fcause = 0#2
  · exact .inl ⟨h, Block.whenReady_of_ready f h⟩
  · exact .inr ⟨h, Block.whenReady_of_faulted f h⟩

/-! ### Steps on the block and answers to the host -/

theorem State.onBlock_eq_next (f : Block → Block) (s t : State) :
    s.onBlock f = .next t ↔ t = { s with block := f s.block } := by
  simp [State.onBlock, eq_comm]

theorem State.giveBack_eq_next (v : ReadValue) (s t : State) :
    s.giveBack v = .next t ↔ t = { s with returned := s.returned ++ [v] } := by
  simp [State.giveBack, eq_comm]

/-! ### Register files -/

theorem Block.palAt_setPal (b : Block) (j k : BitVec 2) (v : Color) :
    (b.setPal j v).palAt k = if k = j then v else b.palAt k := by
  by_cases h : k = j
  · subst h; simp [Block.palAt]
  · have : j.toNat ≠ k.toNat := fun e => h (BitVec.eq_of_toNat_eq e.symm)
    simp [Block.palAt, h, this]

theorem Block.idxAt_setIdx (b : Block) (p q : Pos) (v : Index) :
    (b.setIdx p v).idxAt q = if q = p then v else b.idxAt q := by
  by_cases h : q = p
  · subst h; simp [Block.idxAt]
  · have : p.toNat ≠ q.toNat := fun e => h (BitVec.eq_of_toNat_eq e.symm)
    simp [Block.idxAt, h, this]

theorem Block.plnAt_supplyPln (b : Block) (j k : BitVec 4) (v : PlaneByte) :
    (b.supplyPln j v).plnAt k = if k = j then v else b.plnAt k := by
  by_cases h : k = j
  · subst h; simp [Block.plnAt]
  · have : j.toNat ≠ k.toNat := fun e => h (BitVec.eq_of_toNat_eq e.symm)
    simp [Block.plnAt, h, this]

/-- PVALID[j] is set and every other bit keeps its value (40_register_access R64). -/
theorem getLsbD_pvalidSupply (m : BitVec 16) (j : BitVec 4) (i : Nat) :
    (pvalidSupply m j).getLsbD i = (m.getLsbD i || decide (i = j.toNat)) := by
  have hj : j.toNat < 16 := j.isLt
  by_cases h : i = j.toNat
  · subst h; simp [pvalidSupply, hj]
  · rcases Nat.lt_or_ge i j.toNat with hi | hi
    · simp [pvalidSupply, h, hi]
    · have h0 : i - j.toNat ≠ 0 := by omega
      simp [pvalidSupply, h, BitVec.getLsbD_one, h0]

/-! ### The register map -/

/-- The number of a register names that register. -/
theorem regOfNum_numOfReg (r : Reg) : regOfNum (numOfReg r) = some r := by
  cases r with
  | pal j => revert j; decide
  | pln j => revert j; decide
  | idx p => revert p; decide
  | _ => decide

/-- A number that names a register is that register's number. -/
theorem numOfReg_of_regOfNum {rn : RegNum} {r : Reg} (h : regOfNum rn = some r) : numOfReg r = rn := by
  have key : ∀ n : RegNum, (regOfNum n).all (fun r => numOfReg r == n) = true := by decide
  have := key rn
  rw [h] at this
  simpa using this

theorem regOfNum_eq_some {rn : RegNum} {r : Reg} : regOfNum rn = some r ↔ rn = numOfReg r :=
  ⟨fun h => (numOfReg_of_regOfNum h).symm, fun h => h ▸ regOfNum_numOfReg r⟩

/-! ### Taking the next event from the port -/

theorem fetch_idle {s : State} (h : s.port = []) : fetch s = .idle := by simp [fetch, h]

theorem fetch_reset {s : State} {rest : List HostEvent} (h : s.port = .resetInput :: rest) :
    fetch s = .reset rest := by simp [fetch, h]

theorem fetch_instr {s : State} {a : Access} {rest : List HostEvent} {i : Instr} (h : s.port = .access a :: rest)
    (hd : decode a = .ok i) : fetch s = .instr i rest := by simp [fetch, h, hd]

theorem fetch_bad {s : State} {a : Access} {rest : List HostEvent} {e : DecodeError} (h : s.port = .access a :: rest)
    (hd : decode a = .error e) : fetch s = .bad e := by simp [fetch, h, hd]

end Sys2Proof.Machine
end

