-- ==== Sys2Proof/Laws/Codec.lean ====
section
/-!
SUPPORT. What the pure functions of the commands give: the palette lookup, the plane bytes, the unpacked cells.
-/

namespace Sys2Proof.Machine

/-- All `lut_find` can answer: a position that holds the colour with none below it, or nothing (41_quantizer R73). -/
theorem lutFind_cases (b : Block) (c : Color) :
    (∃ j, lutFind b c = some j ∧ b.palAt j = c ∧ ∀ k : BitVec 2, k < j → b.palAt k ≠ c) ∨
    (lutFind b c = none ∧ ∀ j : BitVec 2, b.palAt j ≠ c) := by
  have all : ∀ P : BitVec 2 → Prop, P 0#2 → P 1#2 → P 2#2 → P 3#2 → ∀ j, P j := by
    intro P h0 h1 h2 h3 j
    have : j = 0#2 ∨ j = 1#2 ∨ j = 2#2 ∨ j = 3#2 := by revert j; decide
    rcases this with rfl | rfl | rfl | rfl <;> assumption
  unfold lutFind
  split
  · exact .inl ⟨0#2, rfl, ‹_›, all _ (by simp) (by simp) (by simp) (by simp)⟩
  split
  · exact .inl ⟨1#2, rfl, ‹_›, all _ (by simpa) (by simp) (by simp) (by simp)⟩
  split
  · exact .inl ⟨2#2, rfl, ‹_›, all _ (by simpa) (by simpa) (by simp) (by simp)⟩
  split
  · exact .inl ⟨3#2, rfl, ‹_›, all _ (by simpa) (by simpa) (by simpa) (by simp)⟩
  · exact .inr ⟨rfl, all _ (by simpa) (by simpa) (by simpa) (by simpa)⟩

/-- Column c of a row is bit 7-c of its plane byte (42_packer R81). -/
theorem getLsbD_planeOf (b : Nat) (row : Vector Index 8) (c : Fin 8) :
    (planeOf b row).getLsbD (7 - c.val) = row[c].getLsbD b := by
  rw [planeOf, BitVec.getLsbD_ofBoolListBE]
  match c with
  | 0 => rfl
  | 1 => rfl
  | 2 => rfl
  | 3 => rfl
  | 4 => rfl
  | 5 => rfl
  | 6 => rfl
  | 7 => rfl

/-- Bit 0 of an unpacked cell is the low plane's bit (43_unpacker R86). -/
theorem getLsbD_unpackCell_zero (low high : PlaneByte) (c : Nat) :
    (unpackCell low high c).getLsbD 0 = low.getLsbD (7 - c) := by
  rw [unpackCell]
  cases low.getLsbD (7 - c) <;> cases high.getLsbD (7 - c) <;> rfl

/-- Bit 1 of an unpacked cell is the high plane's bit (43_unpacker R86). -/
theorem getLsbD_unpackCell_one (low high : PlaneByte) (c : Nat) :
    (unpackCell low high c).getLsbD 1 = high.getLsbD (7 - c) := by
  rw [unpackCell]
  cases low.getLsbD (7 - c) <;> cases high.getLsbD (7 - c) <;> rfl

/-- Byte 2k of a packed tile is the low plane of row k (42_packer R80). -/
theorem packTile_low (t : Tile) (k : Fin 8) : (packTile t)[2 * k.val] = planeOf 0 (tileRow t k) := by
  have h1 : 2 * k.val / 2 = k.val := by omega
  have h2 : 2 * k.val % 2 = 0 := by omega
  simp [packTile, packRow, h1]

/-- Byte 2k+1 of a packed tile is the high plane of row k (42_packer R80). -/
theorem packTile_high (t : Tile) (k : Fin 8) : (packTile t)[2 * k.val + 1] = planeOf 1 (tileRow t k) := by
  have h1 : (2 * k.val + 1) / 2 = k.val := by omega
  simp [packTile, packRow, h1, Nat.add_mod]

/-- Cell 8k+c of an unpacked tile comes from bytes 2k and 2k+1 (43_unpacker R85). -/
theorem unpackTile_cell (q : Planar) (k c : Fin 8) :
    (unpackTile q)[8 * k.val + c.val] = unpackCell q[2 * k.val] q[2 * k.val + 1] c.val := by
  have h1 : (8 * k.val + c.val) / 8 = k.val := by omega
  have h2 : (8 * k.val + c.val) % 8 = c.val := by omega
  simp [unpackTile, unpackRow, h1, h2]

/-! ### Equal tiles, planes, cells and bytes, position by position -/

theorem Tile.ext_cells {x y : Tile} (h : ∀ k c : Fin 8, x[8 * k.val + c.val] = y[8 * k.val + c.val]) : x = y := by
  apply Vector.ext
  intro i hi
  have := h ⟨i / 8, by omega⟩ ⟨i % 8, by omega⟩
  have e : 8 * (i / 8) + i % 8 = i := by omega
  simpa [e] using this

theorem Planar.ext_rows {x y : Planar}
    (h : ∀ k : Fin 8, x[2 * k.val] = y[2 * k.val] ∧ x[2 * k.val + 1] = y[2 * k.val + 1]) : x = y := by
  apply Vector.ext
  intro i hi
  have := h ⟨i / 2, by omega⟩
  rcases Nat.mod_two_eq_zero_or_one i with e | e
  · have e : 2 * (i / 2) = i := by omega
    simpa [e] using this.1
  · have e : 2 * (i / 2) + 1 = i := by omega
    simpa [e] using this.2

theorem Index.ext_bits {x y : Index} (h0 : x.getLsbD 0 = y.getLsbD 0) (h1 : x.getLsbD 1 = y.getLsbD 1) : x = y := by
  revert x y
  decide

theorem PlaneByte.ext_columns {x y : PlaneByte} (h : ∀ c : Fin 8, x.getLsbD (7 - c.val) = y.getLsbD (7 - c.val)) :
    x = y := by
  apply BitVec.eq_of_getLsbD_eq
  intro i hi
  have := h ⟨7 - i, by omega⟩
  have e : 7 - (7 - i) = i := by omega
  simpa [e] using this

/-! ### PACK, field by field -/

@[simp] theorem packBlock_pal (b : Block) : (packBlock b).pal = b.pal := rfl
@[simp] theorem packBlock_color (b : Block) : (packBlock b).color = b.color := rfl
@[simp] theorem packBlock_idx (b : Block) : (packBlock b).idx = b.idx := rfl
@[simp] theorem packBlock_pln (b : Block) : (packBlock b).pln = packTile b.idx := rfl
@[simp] theorem packBlock_pvalid (b : Block) : (packBlock b).pvalid = 0xFFFF#16 := rfl
@[simp] theorem packBlock_fcause (b : Block) : (packBlock b).fcause = b.fcause := rfl
@[simp] theorem packBlock_fval (b : Block) : (packBlock b).fval = b.fval := rfl
@[simp] theorem packBlock_fpos (b : Block) : (packBlock b).fpos = b.fpos := rfl

end Sys2Proof.Machine
end

