-- ==== Sys2Proof/Laws/Exec.lean ====
section
/-!
SUPPORT. What an instruction can do, said once: command words row by row, a write by register, and the inversion of
`exec` and of `step`, which later proofs cite instead of unfolding either.
-/

namespace Sys2Proof.Machine

/-! ### A step on the block behind the gate -/

theorem State.onBlock_whenReady_ready (f : Block → Block) {s : State} (h : s.block.fcause = 0#2) :
    s.onBlock (Block.whenReady f) = .next { s with block := f s.block } := by
  simp [State.onBlock, Block.whenReady_of_ready f h]

theorem State.onBlock_whenReady_faulted (f : Block → Block) {s : State} (h : s.block.fcause ≠ 0#2) :
    s.onBlock (Block.whenReady f) = .next s := by
  simp [State.onBlock, Block.whenReady_of_faulted f h]

/-! ### Command words -/

/-- The rows of the opcode map, one of which every word selects (30_encoding R55, R56). -/
theorem decodeCommand_cases : ∀ w : CmdWord,
    (decodeCommand w = .ok .pack ∧ w = 0x01#8) ∨ (decodeCommand w = .ok .unpack ∧ w = 0x02#8) ∨
    (decodeCommand w = .ok .srst ∧ w = 0x3F#8) ∨
    (decodeCommand w = .ok (.quant (w.extractLsb' 0 6)) ∧ w = 0b01#2 ++ w.extractLsb' 0 6) ∨
    (decodeCommand w = .ok (.qpad (w.extractLsb' 0 6)) ∧ w = 0b10#2 ++ w.extractLsb' 0 6) ∨
    (decodeCommand w = .ok (.deq (w.extractLsb' 0 6)) ∧ w = 0b11#2 ++ w.extractLsb' 0 6) ∨
    (decodeCommand w = .error (.reservedWord w) ∧ ReservedWord w) := by decide

theorem decodeCommand_quant : ∀ p : Pos, decodeCommand (0b01#2 ++ p) = .ok (.quant p) := by decide

theorem decodeCommand_qpad : ∀ p : Pos, decodeCommand (0b10#2 ++ p) = .ok (.qpad p) := by decide

theorem decodeCommand_deq : ∀ p : Pos, decodeCommand (0b11#2 ++ p) = .ok (.deq p) := by decide

theorem decodeCommand_reserved : ∀ w : CmdWord, ReservedWord w → decodeCommand w = .error (.reservedWord w) := by
  decide

@[simp] theorem cmdWordOf_setWidth (w : CmdWord) : cmdWordOf (w.setWidth 32) = w := by simp [cmdWordOf]

theorem fitsReg_cmd_setWidth (w : CmdWord) : fitsReg .cmd (w.setWidth 32) = true := by
  have : w.toNat < 256 := w.isLt
  simp [fitsReg, regWidth, Nat.mod_eq_of_lt (show w.toNat < 4294967296 by omega), this]

/-- A value that fits CMD is a command word. -/
theorem setWidth_cmdWordOf {v : PortWord} (h : fitsReg .cmd v = true) : (cmdWordOf v).setWidth 32 = v := by
  have h : v.toNat < 2 ^ 8 := of_decide_eq_true h
  apply BitVec.eq_of_toNat_eq
  simp only [cmdWordOf, BitVec.toNat_setWidth]
  omega

/-! ### The register map -/

@[simp] theorem regOfNum_zero : regOfNum 0x00#7 = some .cmd := by decide

theorem regOfNum_reserved : ∀ rn : RegNum, ReservedNumber rn → regOfNum rn = none := by decide

theorem numOfReg_injective {q r : Reg} (h : numOfReg q = numOfReg r) : q = r := by
  have := regOfNum_numOfReg q
  rw [h, regOfNum_numOfReg] at this
  exact (Option.some.inj this).symm

/-! ### The name the decoder gives an instruction -/

theorem canonicalInstr_of_ne_wr {i : Instr} (h : ∀ rn v, i ≠ .wr rn v) : canonicalInstr i = i := by
  cases i <;> first | rfl | exact absurd rfl (h _ _)

theorem canonicalInstr_wr_of_ne_zero {rn : RegNum} (v : PortWord) (h : rn ≠ 0x00#7) :
    canonicalInstr (.wr rn v) = .wr rn v := by simp [canonicalInstr, deliveredCommand, h]

theorem canonicalInstr_commandWrite {w : CmdWord} {i : Instr} (h : decodeCommand w = .ok i) :
    canonicalInstr (.wr 0x00#7 (w.setWidth 32)) = i := by
  simp [canonicalInstr, deliveredCommand, h, Except.toOption]

theorem canonicalInstr_reservedWrite {w : CmdWord} (h : ReservedWord w) :
    canonicalInstr (.wr 0x00#7 (w.setWidth 32)) = .wr 0x00#7 (w.setWidth 32) := by
  simp [canonicalInstr, deliveredCommand, decodeCommand_reserved w h, Except.toOption]

/-! ### Reads and writes, by register -/

theorem exec_rd (r : Reg) (s : State) :
    exec (.rd (numOfReg r)) s = .next { s with returned := s.returned ++ [s.block.readValue r] } := by
  simp [exec, execRd, regOfNum_numOfReg, State.giveBack]

theorem exec_wr {r : Reg} {v : PortWord} (s : State) (hf : fitsReg r v = true) :
    exec (.wr (numOfReg r) v) s = execRegWrite r v s := by
  simp [exec, execWr, regOfNum_numOfReg, hf]

theorem exec_commandWrite (w : CmdWord) (s : State) : exec (.wr 0x00#7 (w.setWidth 32)) s = execCmdWord w s := by
  rw [show (0x00#7) = numOfReg .cmd from rfl, exec_wr s (fitsReg_cmd_setWidth w)]
  simp [execRegWrite]

/-- A defined word written to CMD is the command it encodes (40_register_access R65). -/
theorem execCmdWord_defined {w : CmdWord} {i : Instr} (h : decodeCommand w = .ok i) (s : State) :
    execCmdWord w s = exec i s := by
  unfold decodeCommand at h
  unfold execCmdWord
  repeat' split at h
  all_goals simp_all [exec]
  all_goals subst h; rfl

/-- A reserved word written to CMD raises IllegalCommand behind the gate (40_register_access R65). -/
theorem execCmdWord_reserved {w : CmdWord} (h : ReservedWord w) (s : State) :
    execCmdWord w s = s.onBlock (Block.whenReady fun b => b.raiseFault 3#2 (w.setWidth 32) 0#6) := by
  have h := decodeCommand_reserved w h
  unfold decodeCommand at h
  unfold execCmdWord
  repeat' split at h
  all_goals simp_all [causeIllegalCommand]

/-- A data write leaves the three fault registers alone. -/
theorem Block.writeReg_fault (b : Block) (r : Reg) (v : PortWord) :
    (b.writeReg r v).fcause = b.fcause ∧ (b.writeReg r v).fval = b.fval ∧ (b.writeReg r v).fpos = b.fpos := by
  cases r <;> exact ⟨rfl, rfl, rfl⟩

/-! ### The effect of each command on a ready block -/

/-- All QUANT can do on a ready block (41_quantizer R70). -/
theorem quantCell_cases (p : Pos) (b : Block) :
    (∃ j, LowestMatch b b.color j ∧ quantCell p b = b.setIdx p j) ∨
    (NotInPalette b b.color ∧ quantCell p b = b.raiseFault 1#2 b.color p) := by
  rcases lutFind_cases b b.color with ⟨i, e, hi, hl⟩ | ⟨e, hn⟩
  · exact .inl ⟨i, ⟨hi, hl⟩, by simp [quantCell, e]⟩
  · exact .inr ⟨hn, by simp [quantCell, e, causeUnsupportedColor]⟩

/-- All UNPACK can do on a ready block (43_unpacker R85). -/
theorem unpackBlock_cases (b : Block) :
    (b.pvalid = 0xFFFF#16 ∧ unpackBlock b = { b with idx := unpackTile b.pln, pvalid := 0x0000#16 }) ∨
    (b.pvalid ≠ 0xFFFF#16 ∧ unpackBlock b = b.raiseFault 2#2 (b.pvalid.setWidth 32) 0#6) := by
  by_cases h : b.pvalid = 0xFFFF#16
  · exact .inl ⟨h, by simp [unpackBlock, pvalidComplete, h, pvalidNone]⟩
  · exact .inr ⟨h, by simp [unpackBlock, pvalidComplete, h, causeMalformedBuffer]⟩

/-! ### Inversion of exec and of step -/

/-- The effect on the block, behind the gate, of every instruction but RD and SRST. -/
inductive GatedEffect (i : Instr) : (Block → Block) → Prop where
  | pack (h : canonicalInstr i = .pack) : GatedEffect i packBlock
  | unpack (h : canonicalInstr i = .unpack) : GatedEffect i unpackBlock
  | quant (p : Pos) (h : canonicalInstr i = .quant p) : GatedEffect i (quantCell p)
  | qpad (p : Pos) (h : canonicalInstr i = .qpad p) : GatedEffect i (padCell p)
  | deq (p : Pos) (h : canonicalInstr i = .deq p) : GatedEffect i (lookupCell p)
  | reservedWord (w : CmdWord) (h : i = .wr 0x00#7 (w.setWidth 32)) (hw : ReservedWord w) :
    GatedEffect i fun b => b.raiseFault 3#2 (w.setWidth 32) 0#6
  | dataWrite (r : Reg) (v : PortWord) (h : i = .wr (numOfReg r) v) (hr : r ≠ .cmd) (hf : fitsReg r v = true) :
    GatedEffect i fun b => b.writeReg r v

/-- All an instruction that completes can have done. -/
inductive ExecEffect (i : Instr) (s : State) : State → Prop where
  | rd (r : Reg) (h : i = .rd (numOfReg r)) :
    ExecEffect i s { s with returned := s.returned ++ [s.block.readValue r] }
  | srst (h : canonicalInstr i = .srst) : ExecEffect i s { s with block := Block.reset }
  | gated (f : Block → Block) (h : GatedEffect i f) : ExecEffect i s { s with block := s.block.whenReady f }

theorem GatedEffect.toExecEffect {i : Instr} {f : Block → Block} (g : GatedEffect i f) {s t : State}
    (h : s.onBlock (Block.whenReady f) = .next t) : ExecEffect i s t :=
  (State.onBlock_eq_next _ _ _).1 h ▸ .gated f g

theorem exec_next_cases {i : Instr} {s t : State} (h : exec i s = .next t) : ExecEffect i s t := by
  cases i with
  | pack => exact (GatedEffect.pack rfl).toExecEffect h
  | unpack => exact (GatedEffect.unpack rfl).toExecEffect h
  | srst => exact (State.onBlock_eq_next _ _ _).1 h ▸ .srst rfl
  | quant p => exact (GatedEffect.quant p rfl).toExecEffect h
  | qpad p => exact (GatedEffect.qpad p rfl).toExecEffect h
  | deq p => exact (GatedEffect.deq p rfl).toExecEffect h
  | rd rn =>
    simp only [exec, execRd] at h
    cases hr : regOfNum rn with
    | none => simp [hr] at h
    | some r =>
      simp only [hr, State.giveBack_eq_next] at h
      exact h ▸ .rd r (by rw [numOfReg_of_regOfNum hr])
  | wr rn v =>
    simp only [exec, execWr] at h
    cases hr : regOfNum rn with
    | none => simp [hr] at h
    | some r =>
      obtain rfl := numOfReg_of_regOfNum hr
      simp only [hr] at h
      split at h
      next hf =>
        by_cases hc : r = .cmd
        · subst hc
          simp only [execRegWrite, if_true] at h
          have hv : Instr.wr (numOfReg .cmd) v = .wr 0x00#7 ((cmdWordOf v).setWidth 32) := by
            rw [setWidth_cmdWordOf hf]; rfl
          rw [hv]
          generalize cmdWordOf v = w at h
          rcases decodeCommand_cases w with ⟨e, -⟩ | ⟨e, -⟩ | ⟨e, -⟩ | ⟨e, -⟩ | ⟨e, -⟩ | ⟨e, -⟩ | ⟨-, hw⟩
          · rw [execCmdWord_defined e] at h; exact (GatedEffect.pack (canonicalInstr_commandWrite e)).toExecEffect h
          · rw [execCmdWord_defined e] at h; exact (GatedEffect.unpack (canonicalInstr_commandWrite e)).toExecEffect h
          · rw [execCmdWord_defined e] at h
            exact (State.onBlock_eq_next _ _ _).1 h ▸ .srst (canonicalInstr_commandWrite e)
          · rw [execCmdWord_defined e] at h; exact (GatedEffect.quant _ (canonicalInstr_commandWrite e)).toExecEffect h
          · rw [execCmdWord_defined e] at h; exact (GatedEffect.qpad _ (canonicalInstr_commandWrite e)).toExecEffect h
          · rw [execCmdWord_defined e] at h; exact (GatedEffect.deq _ (canonicalInstr_commandWrite e)).toExecEffect h
          · rw [execCmdWord_reserved hw] at h; exact (GatedEffect.reservedWord w rfl hw).toExecEffect h
        · simp only [execRegWrite, hc, if_false] at h
          exact (GatedEffect.dataWrite r v rfl hc hf).toExecEffect h
      next => cases h

/-- All a step that answers a next state can have done. -/
inductive StepEffect (s : State) : State → Prop where
  | idle (h : s.port = []) : StepEffect s s
  | reset (rest : List HostEvent) (h : s.port = .resetInput :: rest) :
    StepEffect s { s with block := Block.reset, port := rest }
  | instr (a : Access) (rest : List HostEvent) (i : Instr) (t : State) (h : s.port = .access a :: rest)
    (hd : decode a = .ok i) (hx : exec i { s with port := rest } = .next t) : StepEffect s t

theorem step_next_cases {s t : State} (h : step s = .next t) : StepEffect s t := by
  cases hp : s.port with
  | nil => rw [step, fetch_idle hp] at h; cases h; exact .idle hp
  | cons e rest =>
    cases e with
    | resetInput => rw [step, fetch_reset hp] at h; cases h; exact .reset rest hp
    | access a =>
      cases hd : decode a with
      | error e => rw [step, fetch_bad hp hd] at h; cases h
      | ok i => rw [step, fetch_instr hp hd] at h; exact .instr a rest i t hp hd h

end Sys2Proof.Machine
end

