-- ==== Sys2Proof/Laws/PerInstr.lean ====
section
/-!
SUPPORT. One lemma per constructor of Instr for each family of statements about instructions as syntax.
-/

namespace Sys2Proof.Laws.EncodedAccess

/-- The access that issues a well-formed instruction names an assigned register, and a write carries a value that fits
it (20_memory R33, R45). -/
def Statement (i : Instr) : Prop :=
  WellFormed i →
    match encode i with
    | .read rn => (Machine.regOfNum rn).isSome = true
    | .write rn v => (Machine.regOfNum rn).any (Machine.fitsReg · v) = true

/-- Eight bits fit CMD. -/
theorem commandAccess_fits (w : CmdWord) : (Machine.regOfNum 0x00#7).any (Machine.fitsReg · (w.setWidth 32)) = true := by
  have : w.toNat < 256 := w.isLt
  simp [Machine.regOfNum, Machine.fitsReg, Machine.regWidth, Nat.mod_eq_of_lt (show w.toNat < 4294967296 by omega), this]

theorem pack : Statement .pack := fun _ => commandAccess_fits _
theorem unpack : Statement .unpack := fun _ => commandAccess_fits _
theorem srst : Statement .srst := fun _ => commandAccess_fits _
theorem quant (p : Pos) : Statement (.quant p) := fun _ => commandAccess_fits _
theorem qpad (p : Pos) : Statement (.qpad p) := fun _ => commandAccess_fits _
theorem deq (p : Pos) : Statement (.deq p) := fun _ => commandAccess_fits _
theorem rd (rn : RegNum) : Statement (.rd rn) := fun h => h
theorem wr (rn : RegNum) (v : PortWord) : Statement (.wr rn v) := fun h => h

end Sys2Proof.Laws.EncodedAccess
end

