-- ==== Sys2Proof/Laws/Port.lean ====
section
/-!
SUPPORT. What each access does when a host issues it: one rewriting lemma per kind of access, over states in the form
`⟨block, [], returned⟩`.
-/

namespace Sys2Proof.Machine

/-! ### How the host's accesses decode -/

theorem decode_rdAccess (r : Reg) : decode (rdAccess r) = .ok (.rd (numOfReg r)) := by
  simp [rdAccess, decode, regOfNum_numOfReg]

theorem decode_wrAccess {r : Reg} {v : PortWord} (hr : r ≠ .cmd) (hf : fitsReg r v = true) :
    decode (wrAccess r v) = .ok (.wr (numOfReg r) v) := by
  simp [wrAccess, decode, regOfNum_numOfReg, hr, hf]

theorem decode_commandAccess {w : CmdWord} {i : Instr} (h : decodeCommand w = .ok i) :
    decode (commandAccess w) = .ok i := by
  simp [commandAccess, decode, fitsReg_cmd_setWidth, h]

/-! ### Issuing accesses -/

variable (b : Block) (port : List HostEvent) (rs : List ReadValue) (es : List HostEvent)

theorem issueAll_instr {a : Access} {i : Instr} (hd : decode a = .ok i) {t : State}
    (hx : exec i ⟨b, [], rs⟩ = .next t) : issueAll (.access a :: es) ⟨b, port, rs⟩ = issueAll es t := by
  simp [issueAll, step, fetch, hd, hx]

/-- A read returns the register's value and changes nothing. -/
theorem issueAll_rdAccess (r : Reg) :
    issueAll (.access (rdAccess r) :: es) ⟨b, port, rs⟩ = issueAll es ⟨b, [], rs ++ [b.readValue r]⟩ :=
  issueAll_instr b port rs es (decode_rdAccess r) (exec_rd r _)

/-- A data write writes its register behind the gate. -/
theorem issueAll_wrAccess {r : Reg} {v : PortWord} (hr : r ≠ .cmd) (hf : fitsReg r v = true) :
    issueAll (.access (wrAccess r v) :: es) ⟨b, port, rs⟩ =
      issueAll es ⟨b.whenReady (·.writeReg r v), [], rs⟩ :=
  issueAll_instr b port rs es (decode_wrAccess hr hf) (by simp [exec_wr _ hf, execRegWrite, hr, State.onBlock])

theorem issueAll_pack :
    issueAll (.access (encode .pack) :: es) ⟨b, port, rs⟩ = issueAll es ⟨b.whenReady packBlock, [], rs⟩ :=
  issueAll_instr b port rs es (decode_commandAccess rfl) rfl

theorem issueAll_unpack :
    issueAll (.access (encode .unpack) :: es) ⟨b, port, rs⟩ = issueAll es ⟨b.whenReady unpackBlock, [], rs⟩ :=
  issueAll_instr b port rs es (decode_commandAccess rfl) rfl

theorem issueAll_srst :
    issueAll (.access (encode .srst) :: es) ⟨b, port, rs⟩ = issueAll es ⟨Block.reset, [], rs⟩ :=
  issueAll_instr b port rs es (decode_commandAccess rfl) rfl

theorem issueAll_quant (p : Pos) :
    issueAll (.access (encode (.quant p)) :: es) ⟨b, port, rs⟩ = issueAll es ⟨b.whenReady (quantCell p), [], rs⟩ :=
  issueAll_instr b port rs es (decode_commandAccess (decodeCommand_quant p)) rfl

theorem issueAll_qpad (p : Pos) :
    issueAll (.access (encode (.qpad p)) :: es) ⟨b, port, rs⟩ = issueAll es ⟨b.whenReady (padCell p), [], rs⟩ :=
  issueAll_instr b port rs es (decode_commandAccess (decodeCommand_qpad p)) rfl

theorem issueAll_deq (p : Pos) :
    issueAll (.access (encode (.deq p)) :: es) ⟨b, port, rs⟩ = issueAll es ⟨b.whenReady (lookupCell p), [], rs⟩ :=
  issueAll_instr b port rs es (decode_commandAccess (decodeCommand_deq p)) rfl

/-- Reads of a list of registers return their values in that order. -/
theorem issueAll_reads (regs : List Reg) :
    issueAll ((regs.map rdAccess).map .access ++ es) ⟨b, [], rs⟩ = issueAll es ⟨b, [], rs ++ regs.map b.readValue⟩ := by
  induction regs generalizing rs with
  | nil => simp
  | cons r regs ih =>
    rw [List.map_cons, List.map_cons, List.cons_append, issueAll_rdAccess, ih]
    simp

/-! ### Calls -/

/-- A call whose accesses all complete gives the state they end in and the values they returned. -/
theorem hostCall_of_next {as : List Access} {b' : Block} {rs' : List ReadValue}
    (h : issueAll (as.map .access) ⟨b, port, []⟩ = .next ⟨b', [], rs'⟩) (rs : List ReadValue) :
    hostCall as ⟨b, port, rs⟩ = .ok (⟨b', [], rs'⟩, rs'.map ReadValue.value) := by
  simp [hostCall, h]

/-- CHK of a ready block goes on. -/
theorem checkFault_ready (o : TileOrigin) (h : b.fcause = 0#2) :
    ∃ rs', checkFault o ⟨b, port, rs⟩ = .ok ⟨b, [], rs'⟩ := by
  have e := hostCall_of_next (as := [rdAccess .fcause, rdAccess .fval, rdAccess .fpos]) b port
    (by simp only [List.map_cons, issueAll_rdAccess]; rfl) rs
  exact ⟨[b.readValue .fcause, b.readValue .fval, b.readValue .fpos], by
    rw [checkFault, e]; simp [Block.readValue, Block.readReg, h]⟩

/-- CHK of a faulted block fails as the three fault registers say (48_host_procedures R124). -/
theorem checkFault_faulted (o : TileOrigin) (h : b.fcause ≠ 0#2) :
    checkFault o ⟨b, port, rs⟩ =
      .error (translateFault (b.fcause.setWidth 32) b.fval (b.fpos.setWidth 32) o) := by
  have e := hostCall_of_next (as := [rdAccess .fcause, rdAccess .fval, rdAccess .fpos]) b port
    (by simp only [List.map_cons, issueAll_rdAccess]; rfl) rs
  have h' : b.fcause.setWidth 32 ≠ 0#32 := by
    revert h
    generalize b.fcause = c
    revert c
    decide
  rw [checkFault, e]
  simp [Block.readValue, Block.readReg, h']

end Sys2Proof.Machine
end

