-- ==== Sys2Proof/Tests/Slice0.lean ====
section
/-!
SUPPORT. Tests: expected results come from 95_test_vectors (the V numbers) and from the encodings of 30_encoding,
written out bit by bit. Then the witnesses: for each statement with hypotheses, a state and operands that meet them.
-/

namespace Sys2Proof.Tests

open Sys2Proof Sys2Proof.Machine

/-! ### Helpers -/

/-- The outcome is a next state with the property. -/
def nextWith (r : Host.Outcome State Fault Refusal) (P : State → Bool) : Bool :=
  match r with
  | .next t => P t
  | .fault _ => false
  | .refused _ => false

/-- The outcome is this refusal. -/
def refusedWith (r : Host.Outcome State Fault Refusal) (x : Refusal) : Bool :=
  match r with
  | .next _ => false
  | .fault _ => false
  | .refused y => y == x

/-- A procedure's error. -/
def errorOf {α : Type} (r : Except HostError α) : Option HostError :=
  match r with
  | .ok _ => none
  | .error e => some e

/-- A step from the state after reset, with changes to its block. -/
def ready (f : Block → Block) : State := { State.reset with block := f State.reset.block }

/-- The block after V22: UnsupportedColor of 0x123456FF at cell 9. -/
def faultedColor : State :=
  ready fun b => { b with color := 0x123456FF#32, fcause := 1#2, fval := 0x123456FF#32, fpos := 9#6 }

/-- The block after V43: UNPACK with no byte supplied. -/
def faultedBuffer : State := ready fun b => { b with fcause := 2#2 }

/-- The block after V60b: the reserved word 0x03 written to CMD. -/
def faultedCommand : State := ready fun b => { b with fcause := 3#2, fval := 0x03#32 }

/-- A row of eight cells, eight times (V34 to V36). -/
def rows8 (row : Vector Index 8) : Tile := Vector.ofFn fun p => row[p.val % 8]'(by omega)

/-- A pair of plane bytes, eight times (V41). -/
def pairs8 (low high : PlaneByte) : Planar := Vector.ofFn fun j => if j.val % 2 = 0 then low else high

/-! ### Well-formedness: what each check refuses -/

theorem test_wellFormed_every_command :
    WellFormed .pack ∧ WellFormed .unpack ∧ WellFormed .srst ∧ WellFormed (.quant 63#6) ∧ WellFormed (.qpad 63#6) ∧
    WellFormed (.deq 63#6) := by decide

theorem test_wellFormed_accesses :
    WellFormed (.rd 0x7F#7) ∧ WellFormed (.wr 0x7F#7 3#32) ∧ WellFormed (.wr 0x00#7 0xFF#32) ∧
    WellFormed (.wr 0x01#7 3#32) ∧ WellFormed (.wr 0x1F#7 0xFF#32) ∧ WellFormed (.wr 0x0B#7 0xFFFFFFFF#32) := by decide

theorem test_illFormed_rd_reserved_number : ¬ WellFormed (.rd 0x06#7) ∧ ¬ WellFormed (.rd 0x3F#7) := by decide

theorem test_illFormed_wr_reserved_number : ¬ WellFormed (.wr 0x0C#7 0#32) ∧ ¬ WellFormed (.wr 0x20#7 0#32) := by decide

theorem test_illFormed_wr_value_too_wide :
    ¬ WellFormed (.wr 0x00#7 0x100#32) ∧ ¬ WellFormed (.wr 0x01#7 4#32) ∧ ¬ WellFormed (.wr 0x03#7 64#32) ∧
    ¬ WellFormed (.wr 0x04#7 0x10000#32) ∧ ¬ WellFormed (.wr 0x10#7 0x100#32) ∧ ¬ WellFormed (.wr 0x40#7 4#32) := by
  decide

/-! ### Decoding: words written out from 30_encoding R55 and R53 -/

theorem test_decode_pack : decode (.write 0b0000000#7 0b00000001#32) = .ok .pack := by rfl

theorem test_decode_unpack : decode (.write 0b0000000#7 0b00000010#32) = .ok .unpack := by rfl

theorem test_decode_srst : decode (.write 0b0000000#7 0b00111111#32) = .ok .srst := by rfl

/-- V73: 0x4A is row 1, column 2. -/
theorem test_decode_quant : decode (.write 0b0000000#7 0b01001010#32) = .ok (.quant 10#6) := by rfl

/-- V74: 0x93 is row 2, column 3. -/
theorem test_decode_qpad : decode (.write 0b0000000#7 0b10010011#32) = .ok (.qpad 19#6) := by rfl

/-- V75: 0xF8 is row 7, column 0. -/
theorem test_decode_deq : decode (.write 0b0000000#7 0b11111000#32) = .ok (.deq 56#6) := by rfl

/-- V78: `RD FCAUSE` = 0x01, `RD IDX63` = 0x7F. -/
theorem test_decode_rd :
    decode (accessOf 0b00000001#8 0#32) = .ok (.rd 0x01#7) ∧ decode (accessOf 0b01111111#8 0#32) = .ok (.rd 0x7F#7) :=
  ⟨rfl, rfl⟩

/-- V78: `WR PAL3` = 0x8B, `WR COLOR` = 0x85. -/
theorem test_decode_wr :
    decode (accessOf 0b10001011#8 0x112233FF#32) = .ok (.wr 0x0B#7 0x112233FF#32) ∧
    decode (accessOf 0b10000101#8 0xFF#32) = .ok (.wr 0x05#7 0xFF#32) := ⟨rfl, rfl⟩

/-- V70, V72: reserved words. -/
theorem test_decode_reserved_words :
    decodeCommand 0x00#8 = .error (.reservedWord 0x00#8) ∧ decodeCommand 0x03#8 = .error (.reservedWord 0x03#8) ∧
    decodeCommand 0x10#8 = .error (.reservedWord 0x10#8) ∧ decodeCommand 0x3E#8 = .error (.reservedWord 0x3E#8) :=
  ⟨rfl, rfl, rfl, rfl⟩

/-- V76: 61 reserved words of 256. -/
theorem test_decode_count_reserved :
    ((List.range 256).filter fun n => (decodeCommand (BitVec.ofNat 8 n)).toOption.isNone).length = 61 := by decide

theorem test_decode_refuses_reserved_number :
    decode (.read 0x0F#7) = .error (.reservedRegister 0x0F#7) ∧
    decode (.write 0x07#7 0#32) = .error (.reservedRegister 0x07#7) := ⟨rfl, rfl⟩

theorem test_decode_refuses_wide_value : decode (.write 0x40#7 4#32) = .error (.valueTooWide 0x40#7 4#32) := by rfl

/-- V71, V78, V75 as bits written out by the encoder. -/
theorem test_encode_words :
    encodeCommand .pack = some 0b00000001#8 ∧ encodeCommand (.deq 63#6) = some 0b11111111#8 ∧
    descriptorOf (encode (.rd 0x10#7)) = 0x10#8 ∧ descriptorOf (encode (.wr 0x10#7 0#32)) = 0x90#8 ∧
    descriptorOf (encode .pack) = 0x80#8 := by decide

/-- The rows of spec/opcode_table.json as table words; the word of row WR is also QPAD 0 (log entry 7). -/
theorem test_decodeTableWord_rows :
    decodeTableWord 8 0x01 = some .pack ∧ decodeTableWord 8 0x02 = some .unpack ∧ decodeTableWord 8 0x3F = some .srst ∧
    decodeTableWord 8 0x40 = some (.quant 0#6) ∧ decodeTableWord 8 0x80 = some (.qpad 0#6) ∧
    decodeTableWord 8 0xC0 = some (.deq 0#6) ∧ decodeTableWord 8 0x00 = some (.rd 0#7) ∧
    decodeTableWord 40 0x0385 = some (.wr 0x05#7 3#32) ∧ decodeTableWord 8 0x06 = none := by decide

/-- V77: `QUANT 1:2` assembles to the word 0x4A written to CMD; a value that does not fit is an assembly error. -/
theorem test_assemble_line :
    assembleLine ['Q', 'U', 'A', 'N', 'T', ' ', '1', ':', '2'] = .ok [.write 0x00#7 0x4A#32] ∧
    assembleLine ['W', 'R', ' ', 'I', 'D', 'X', '6', '3', ',', ' ', '2'] = .ok [.write 0x7F#7 2#32] ∧
    assembleLine ['W', 'R', ' ', 'I', 'D', 'X', '0', ',', ' ', '4'] = .error .doesNotFit := ⟨rfl, rfl, rfl⟩

/-! ### One step of each instruction -/

/-- V35, V36: the planes of `01230123` rows are 0x55 and 0x33. -/
theorem test_pack_planes : nextWith (exec .pack (ready fun b => { b with idx := rows8 #v[0, 1, 2, 3, 0, 1, 2, 3] }))
    (fun t => t.block.pln == pairs8 0x55#8 0x33#8 && t.block.pvalid == 0xFFFF#16) = true := by decide

/-- V39c. -/
theorem test_pack_ignored_when_faulted : nextWith (exec .pack faultedColor) (fun t => t == faultedColor) = true := by decide

/-- V41f. -/
theorem test_unpack_rows :
    nextWith (exec .unpack (ready fun b => { b with pln := pairs8 0x0F#8 0x33#8, pvalid := 0xFFFF#16 }))
      (fun t => t.block.idx == rows8 #v[0, 0, 2, 2, 1, 1, 3, 3] && t.block.pvalid == 0x0000#16) = true := by decide

/-- V44c. -/
theorem test_unpack_missing_byte : nextWith (exec .unpack (ready fun b => { b with pvalid := 0xFFFE#16 }))
    (fun t => t.block.fcause == 2#2 && t.block.fval == 0x0000FFFE#32 && t.block.fpos == 0#6 &&
      t.block.pvalid == 0xFFFE#16) = true := by decide

/-- V51. -/
theorem test_srst_clears_fault : nextWith (exec .srst faultedColor) (fun t => t == State.reset) = true := by decide

/-- V25: the lowest position wins. -/
theorem test_quant_lowest_match :
    nextWith (exec (.quant 0#6) (ready fun b => { b with
        pal := #v[0xFFFFFFFF#32, 0xAAAAAAFF#32, 0xAAAAAAFF#32, 0x000000FF#32], color := 0xAAAAAAFF#32 }))
      (fun t => t.block.idxAt 0#6 == 1#2 && t.block.fcause == 0#2) = true := by decide

/-- V23b: one bit off white, in the last cell. -/
theorem test_quant_unsupported_color :
    nextWith (exec (.quant 63#6) (ready fun b => { b with color := 0xFEFFFFFF#32 }))
      (fun t => t.block.fcause == 1#2 && t.block.fval == 0xFEFFFFFF#32 && t.block.fpos == 63#6 &&
        t.block.idxAt 63#6 == 0#2) = true := by decide

/-- V27. -/
theorem test_qpad_clears_cell : nextWith (exec (.qpad 7#6) (ready fun b => { b with idx := rows8 #v[1, 1, 1, 1, 1, 1, 1, 3] }))
    (fun t => t.block.idxAt 7#6 == 0#2 && t.block.idxAt 15#6 == 3#2 && t.block.fcause == 0#2) = true := by decide

/-- V28. -/
theorem test_deq_color : nextWith (exec (.deq 56#6) (ready fun b => { b with idx := rows8 #v[1, 2, 2, 2, 2, 2, 2, 2] }))
    (fun t => t.block.color == 0xAAAAAAFF#32) = true := by decide

/-- V10: the last palette entry, at 32 bits. -/
theorem test_rd_palette : nextWith (exec (.rd 0x0B#7) State.reset)
    (fun t => t.returned == [⟨32, 0x000000FF#32⟩] && t.block == State.reset.block) = true := by decide

/-- V19b: the edges of the reserved numbers. -/
theorem test_rd_reserved_numbers :
    ([0x06#7, 0x07#7, 0x0C#7, 0x0F#7, 0x20#7, 0x3F#7].all fun rn =>
      refusedWith (exec (.rd rn) State.reset) (.reservedRegister rn)) = true := by decide

/-- V14: the second byte supplied sets bit 15 beside bit 0. -/
theorem test_wr_plane_byte : nextWith (exec (.wr 0x1F#7 0x7C#32) (ready fun b => { b with pvalid := 0x0001#16 }))
    (fun t => t.block.pvalid == 0x8001#16 && t.block.plnAt 15#4 == 0x7C#8) = true := by decide

/-- V60c: the last reserved word. -/
theorem test_wr_reserved_word : nextWith (exec (.wr 0x00#7 0x3E#32) State.reset)
    (fun t => t.block.fcause == 3#2 && t.block.fval == 0x3E#32 && t.block.fpos == 0#6) = true := by decide

/-! ### The step, and table words as the first instruction after reset -/

theorem test_step_from_reset_is_idle : nextWith (step State.reset) (fun t => t == State.reset) = true := by decide

/-- V43 as the first instruction after reset. -/
theorem test_withFetchWord_unpack : nextWith (step (State.reset.withFetchWord 8 0x02))
    (fun t => t.block.fcause == 2#2 && t.port == []) = true := by decide

/-- V12: `WR COLOR, 0x12345678`, descriptor byte and data. -/
theorem test_withFetchWord_wr_color : nextWith (step (State.reset.withFetchWord 40 0x1234567885))
    (fun t => t.block.color == 0x12345678#32 && t.block.fcause == 0#2) = true := by decide

theorem test_step_reset_input : nextWith (step { faultedColor with port := [.resetInput] })
    (fun t => t == State.reset) = true := by decide

/-! ### The host side -/

/-- V80b, V80d, V80f, V80h. -/
theorem test_normalise :
    normalisePalette (some [0x000000FF#32, 0xFFFFFFFF#32]) =
      some [0x000000FF#32, 0xFFFFFFFF#32, 0x555555FF#32, 0xAAAAAAFF#32] ∧
    normalisePalette (some [0xAAAAAAFF#32]) = some [0xAAAAAAFF#32, 0xFFFFFFFF#32, 0x000000FF#32, 0x555555FF#32] ∧
    normalisePalette (some [0xFF#32, 0xFF#32, 0xFF#32, 0xFF#32]) = some [0xFF#32, 0xFF#32, 0xFF#32, 0xFF#32] ∧
    normalisePalette (some [1#32, 2#32, 3#32, 4#32, 5#32]) = none := by decide

/-- V81d to V81m. -/
theorem test_padAxis :
    padAxis 12 = (2, 2) ∧ padAxis 13 = (2, 1) ∧ padAxis 9 = (4, 3) ∧ padAxis 15 = (1, 0) ∧ padAxis 10 = (3, 3) ∧
    padAxis 17 = (4, 3) ∧ padAxis 160 = (0, 0) ∧ padAxis 5 = (0, 0) ∧ paddedSize 17 = 24 := by decide

/-- V86, V88: the depth converters and an odd length. -/
theorem test_narrow_widen :
    widen [0x3C#8, 0x42#8] = [0x3C#8, 0x3C#8, 0x42#8, 0x42#8] ∧
    narrow [0x28#8, 0x28#8, 0x00#8, 0x00#8, 0x00#8, 0x08#8, 0x04#8, 0x04#8] = some [0x28#8, 0x00#8, 0x00#8, 0x04#8] ∧
    narrow [0x28#8] = none := by decide

/-- V84a, V84f, V84k, and R117: one hint with no tiles. -/
theorem test_dimensions :
    errorOf (dimensions 0 none none) = some .invalidDimension ∧
    errorOf (dimensions 0 (some 16) none) = some .invalidDimension ∧
    errorOf (dimensions 0 none (some 16)) = some .invalidDimension ∧ isqrt 5 * 8 = 16 ∧ isqrt 17 * 8 = 32 := by decide

/-- V87: padded (21, 9), source (19, 9). -/
theorem test_coordinates :
    paddedCoords ⟨1, 2, 2, 0⟩ 13 = (21, 9) ∧ sourceCoords ⟨1, 2, 2, 0⟩ 13 = (19, 9) := by decide

/-- V85: output pixel (11, 9) of four tiles at width 16 is cell 11 of tile 3. -/
theorem test_reconstruct :
    (match rowOf [List.replicate 64 0, List.replicate 64 1, List.replicate 64 2, List.range 64] 16 9 with
      | .ok row => row[11]?
      | .error _ => none) = some 11 := by decide

/-! ### Witnesses: encoding, decoding and steps -/

/-- O1: descriptors of both directions. -/
theorem test_witness_CommandWordSelectsItsRow :
    0x7F#8 &&& 0x80#8 = 0x00#8 ∧ 0x80#8 &&& 0x80#8 = 0x80#8 ∧ 0xFF#8 &&& 0x80#8 = 0x80#8 := by decide

/-- O4: a well-formed instruction, one that is no WR to CMD, a reserved word, a command with its word. -/
theorem test_witness_DecodeOfEncodeReturnsInstr :
    WellFormed (.wr 0x00#7 0x01#32) ∧ WellFormed (.quant 63#6) ∧ (∀ v, Instr.deq 0#6 ≠ .wr 0x00#7 v) ∧
    ReservedWord 0x00#8 ∧ ReservedWord 0x03#8 ∧ ReservedWord 0x3E#8 ∧ encodeCommand (.qpad 5#6) = some 0x85#8 :=
  ⟨by decide, by decide, fun _ => nofun, by decide, by decide, by decide, by decide⟩

/-- O5. -/
theorem test_witness_EncodeOfDecodeReturnsAccess :
    decode (.write 0x00#7 0x3E#32) = .ok (.wr 0x00#7 0x3E#32) ∧ decode (.write 0x00#7 0x7F#32) = .ok (.quant 63#6) ∧
    decode (.read 0x1F#7) = .ok (.rd 0x1F#7) := ⟨rfl, rfl, rfl⟩

/-- O7. -/
theorem test_witness_StepRunsDecodedInstr :
    ({ State.reset with port := [.access (.read 0x05#7), .resetInput] } : State).port =
      .access (.read 0x05#7) :: [.resetInput] ∧ decode (.read 0x05#7) = .ok (.rd 0x05#7) := ⟨rfl, rfl⟩

/-- O8. -/
theorem test_witness_IdleStepKeepsState : State.reset.port = [] := rfl

/-- O9. -/
theorem test_witness_ResetInputResetsBlock :
    ({ faultedColor with port := [.resetInput] } : State).port = .resetInput :: [] := rfl

/-! ### Witnesses: the register port -/

/-- O11: a reserved number, and the numbers at the edges of its other clauses. -/
theorem test_witness_ReadReturnsRegisterAtItsWidth :
    ReservedNumber 0x06#7 ∧ ReservedNumber 0x07#7 ∧ ReservedNumber 0x0C#7 ∧ ReservedNumber 0x0F#7 ∧
    ReservedNumber 0x20#7 ∧ ReservedNumber 0x3F#7 ∧
    (0x08#7 + (3#2).setWidth 7, 0x10#7 + (15#4).setWidth 7, 0x40#7 + (63#6).setWidth 7) = (0x0B#7, 0x1F#7, 0x7F#7) ∧
    ([0x05#7, 0x08#7, 0x0B#7, 0x10#7, 0x1F#7, 0x40#7, 0x7F#7].all fun rn =>
      nextWith (exec (.rd rn) State.reset) fun t => t.block == State.reset.block) = true := by decide

/-- O12. -/
theorem test_witness_ReadTwiceReturnsSameValue :
    ∃ t, exec (.rd 0x08#7) State.reset = .next t ∧ t.returned = [⟨32, 0xFFFFFFFF#32⟩] := ⟨_, rfl, by decide⟩

/-- O13 to O16, O19, O24 to O28, O31 to O35, O42: a ready block. -/
theorem test_witness_ready_block : State.reset.block.fcause = 0#2 := rfl

/-- O27: what cell 63 of the reset block holds. -/
theorem test_witness_DeqLoadsPaletteColor :
    State.reset.block.fcause = 0#2 ∧ State.reset.block.idx[(63#6).toNat]'(63#6).isLt = 0#2 := by decide

/-- O18: a faulted block, of each cause. -/
theorem test_witness_FaultedBlockIgnoresDataWrites :
    faultedColor.block.fcause ≠ 0#2 ∧ faultedBuffer.block.fcause ≠ 0#2 ∧ faultedCommand.block.fcause ≠ 0#2 := by decide

/-- O19: faulted with a word other than SRST, and the words at the edges of each row. -/
theorem test_witness_CommandWritePerformsCommand :
    faultedColor.block.fcause ≠ 0#2 ∧ 0x3E#8 ≠ 0x3F#8 ∧ State.reset.block.fcause = 0#2 ∧
    (0x40#8).extractLsb' 6 2 = 0b01#2 ∧ (0x7F#8).extractLsb' 6 2 = 0b01#2 ∧ (0x80#8).extractLsb' 6 2 = 0b10#2 ∧
    (0xBF#8).extractLsb' 6 2 = 0b10#2 ∧ (0xC0#8).extractLsb' 6 2 = 0b11#2 ∧ (0xFF#8).extractLsb' 6 2 = 0b11#2 ∧
    ReservedWord 0x00#8 ∧ ReservedWord 0x3E#8 ∧ ¬ ReservedWord 0x3F#8 ∧ ¬ ReservedWord 0x02#8 := by decide

/-- O20: a WR to CMD of a defined word and one of a reserved word. -/
theorem test_witness_CanonicalInstrHasSameEffect :
    WellFormed (.wr 0x00#7 0x01#32) ∧ canonicalInstr (.wr 0x00#7 0x01#32) = .pack ∧
    WellFormed (.wr 0x00#7 0x00#32) ∧ canonicalInstr (.wr 0x00#7 0x00#32) = .wr 0x00#7 0x00#32 := by decide

/-- O21: a reserved number, with an access to it next on the port. -/
theorem test_witness_ReservedNumberHasNoStep :
    ReservedNumber 0x0C#7 ∧
    ({ State.reset with port := [.access (.read 0x0C#7)] } : State).port = .access (.read 0x0C#7) :: [] ∧
    ({ State.reset with port := [.access (.write 0x0C#7 1#32)] } : State).port = .access (.write 0x0C#7 1#32) :: [] :=
  ⟨by decide, rfl, rfl⟩

/-- O22: both clauses. -/
theorem test_witness_WellFormedInstrAlwaysCompletes :
    WellFormed (.wr 0x03#7 63#32) ∧ ¬ WellFormed (.wr 0x03#7 64#32) := by decide

/-- O23. -/
theorem test_witness_SameDataWriteTwiceIsOnce :
    0x10#7 ≠ 0x00#7 ∧ ∃ t, exec (.wr 0x10#7 0x99#32) State.reset = .next t := ⟨by decide, _, rfl⟩

/-- O24: PLN[0] written, COLOR read. -/
theorem test_witness_ReadReturnsLatestWrite :
    State.reset.block.fcause = 0#2 ∧ Reg.pln 0#4 ≠ .cmd ∧
    (∃ t, exec (.wr (numOfReg (.pln 0#4)) 0x99#32) State.reset = .next t) ∧ (∃ j, Reg.pln 0#4 = .pln j) ∧
    Reg.color ≠ .pln 0#4 ∧ Reg.color ≠ .pvalid := ⟨rfl, by decide, ⟨_, rfl⟩, ⟨_, rfl⟩, by decide, by decide⟩

/-! ### Witnesses: the quantizer, the packer and the unpacker -/

/-- O25: a colour at the last position, one held twice, and one PAL does not hold. -/
theorem test_witness_QuantWritesLowestMatchOrFaults :
    LowestMatch (ready fun b => { b with color := 0x000000FF#32 }).block 0x000000FF#32 3#2 ∧
    LowestMatch (ready fun b => { b with pal := Vector.replicate 4 7#32 }).block 7#32 0#2 ∧
    NotInPalette State.reset.block State.reset.block.color := by decide

/-- O28: distinct entries. -/
theorem test_witness_DeqThenQuantReturnsIndex :
    State.reset.block.fcause = 0#2 ∧ ∀ a b, State.reset.block.palAt a = State.reset.block.palAt b → a = b := by decide

/-- O29: a QUANT that succeeds. -/
theorem test_witness_QuantThenDeqKeepsColor :
    ∃ t, exec (.quant 63#6) (ready fun b => { b with color := 0xFFFFFFFF#32 }) = .next t ∧ t.block.fcause = 0#2 :=
  ⟨_, rfl, by decide⟩

/-- O30, V26: the reset palette and the same colours reversed. -/
theorem test_witness_PaletteOrderChangesColors :
    State.reset.block.pal.toList.Perm [0x000000FF#32, 0x555555FF#32, 0xAAAAAAFF#32, 0xFFFFFFFF#32] ∧
    State.reset.block.pal ≠ #v[0x000000FF#32, 0x555555FF#32, 0xAAAAAAFF#32, 0xFFFFFFFF#32] := by decide

/-- O32, O34: both clauses of UNPACK: all bytes supplied, and only byte 15 missing. -/
theorem test_witness_UnpackCopiesEveryBitOrFaults :
    (ready fun b => { b with pvalid := 0xFFFF#16 }).block.fcause = 0#2 ∧
    (ready fun b => { b with pvalid := 0xFFFF#16 }).block.pvalid = 0xFFFF#16 ∧
    (ready fun b => { b with pvalid := 0x7FFF#16 }).block.fcause = 0#2 ∧
    (ready fun b => { b with pvalid := 0x7FFF#16 }).block.pvalid ≠ 0xFFFF#16 := by decide

/-- O36: equal planes that are not zero, and all bytes supplied. -/
theorem test_witness_EqualPlanesUnpackToZeroOrThree :
    (ready fun b => { b with pln := pairs8 0x3C#8 0x3C#8, pvalid := 0xFFFF#16 }).block.pvalid = 0xFFFF#16 ∧
    ∀ k : Fin 8, (pairs8 0x3C#8 0x3C#8)[2 * k.val] = (pairs8 0x3C#8 0x3C#8)[2 * k.val + 1] := by decide

/-- O37: two states with the same bytes and different palettes. -/
theorem test_witness_UnpackedCellsDependOnBytesOnly :
    (ready fun b => { b with pvalid := 0xFFFF#16 }).block.pln =
      (ready fun b => { b with pvalid := 0xFFFF#16, color := 1#32 }).block.pln ∧
    (ready fun b => { b with pvalid := 0xFFFF#16, color := 1#32 }).block.pvalid = 0xFFFF#16 ∧
    (ready fun b => { b with pvalid := 0xFFFF#16, color := 1#32 }).block.fcause = 0#2 := by decide

/-! ### Witnesses: faults and whole-machine rules -/

/-- O39: the three clauses on a faulted block: SRST under both names, a read, and anything else. -/
theorem test_witness_FaultedBlockOnlyPerformsSrst :
    faultedColor.block.fcause ≠ 0#2 ∧ WellFormed .srst ∧ WellFormed (.wr 0x00#7 0x3F#32) ∧
    canonicalInstr (.wr 0x00#7 0x3F#32) = .srst ∧ WellFormed (.rd 0x00#7) ∧
    canonicalInstr (.wr 0x00#7 0x00#32) ≠ .srst ∧ canonicalInstr .pack ≠ .srst := by decide

/-- O40: a step that leaves the faulted state, by SRST and by the reset input. -/
theorem test_witness_OnlyResetLeavesFaultedState :
    (∃ t, step { faultedColor with port := [.access (.write 0x00#7 0x3F#32)] } = .next t ∧ t.block.fcause = 0#2) ∧
    ∃ t, step { faultedColor with port := [.resetInput] } = .next t ∧ t.block.fcause = 0#2 :=
  ⟨⟨_, rfl, by decide⟩, ⟨_, rfl, by decide⟩⟩

/-- O41, V61: a QUANT on a faulted block is a step that keeps the record. -/
theorem test_witness_FaultRecordIsNeverOverwritten :
    faultedColor.block.fcause ≠ 0#2 ∧
    ∃ t, step { faultedColor with port := [.access (.write 0x00#7 0x49#32)] } = .next t := ⟨by decide, _, rfl⟩

/-- O42, V24, V43 and V60: one instruction for each of the three faults, and one on a faulted block. -/
theorem test_witness_OnlyThreeFaultsAndPrecise :
    State.reset.block.fcause = 0#2 ∧
    (∃ t, exec (.quant 0#6) State.reset = .next t ∧ t.block.fcause ≠ 0#2) ∧
    (∃ t, exec .unpack State.reset = .next t ∧ t.block.fcause ≠ 0#2) ∧
    (∃ t, exec (.wr 0x00#7 0x00#32) State.reset = .next t ∧ t.block.fcause ≠ 0#2) ∧
    ∃ t, exec .pack faultedColor = .next t ∧ t.block.fcause ≠ 0#2 :=
  ⟨rfl, ⟨_, rfl, by decide⟩, ⟨_, rfl, by decide⟩, ⟨_, rfl, by decide⟩, ⟨_, rfl, by decide⟩⟩

/-- O43. -/
theorem test_witness_ReservedWordRaisesIllegalCommand :
    ReservedWord 0x00#8 ∧ ReservedWord 0x3E#8 ∧ State.reset.block.fcause = 0#2 ∧ faultedCommand.block.fcause ≠ 0#2 := by
  decide

/-- O45: the invariant holds of a state with each fault record, and a step starts there. -/
theorem test_witness_StepKeepsFaultRecordInvariant :
    FaultRecordInv faultedColor.block ∧ FaultRecordInv faultedCommand.block ∧ FaultRecordInv faultedBuffer.block ∧
    ∃ t, step faultedColor = .next t := by
  refine ⟨⟨?_, ?_, ?_, ?_, ?_⟩, ⟨?_, ?_, ?_, ?_, ?_⟩, ⟨?_, ?_, ?_, ?_, ?_⟩, ⟨_, rfl⟩⟩ <;> decide

/-- O46. -/
theorem test_witness_StepKeepsFaultEvidence :
    FaultEvidenceInv faultedColor.block ∧ FaultEvidenceInv faultedBuffer.block ∧ ∃ t, step faultedBuffer = .next t := by
  refine ⟨⟨?_, ?_⟩, ⟨?_, ?_⟩, ⟨_, rfl⟩⟩ <;> decide

/-- O47: one step from reset reaches a faulted state (V43). -/
theorem test_witness_ReachableStatesMeetFaultRecordInvariant :
    ∃ t, Reaches { State.reset with port := [.access (.write 0x00#7 0x02#32)] } t ∧ t.block.fcause = 2#2 :=
  ⟨_, .step .refl rfl, by decide⟩

/-- O48: an instruction that changes a register, for the clauses about PAL, COLOR, IDX, PLN with PVALID, and the record. -/
theorem test_witness_OnlyListedInstrsWriteEachRegister :
    (∃ t, exec (.wr 0x08#7 1#32) State.reset = .next t ∧ t.block.palAt 0#2 ≠ State.reset.block.palAt 0#2) ∧
    (∃ t, exec (.deq 0#6) State.reset = .next t ∧ t.block.color ≠ State.reset.block.color) ∧
    (∃ t, exec (.wr 0x7F#7 2#32) State.reset = .next t ∧ t.block.idxAt 63#6 ≠ State.reset.block.idxAt 63#6) ∧
    (∃ t, exec (.wr 0x1F#7 2#32) State.reset = .next t ∧ t.block.plnAt 15#4 ≠ State.reset.block.plnAt 15#4 ∧
      t.block.pvalid.getLsbD 15 ≠ State.reset.block.pvalid.getLsbD 15) ∧
    (∃ t, exec (.quant 0#6) State.reset = .next t ∧ t.block.fcause ≠ State.reset.block.fcause) ∧
    (∃ t, exec (.rd 0#7) State.reset = .next t ∧ t.returned ≠ State.reset.returned) ∧
    canonicalInstr (.rd 0#7) ≠ .srst ∧ canonicalInstr (.quant 0#6) ≠ .srst :=
  ⟨⟨_, rfl, by decide⟩, ⟨_, rfl, by decide⟩, ⟨_, rfl, by decide⟩, ⟨_, rfl, by decide⟩, ⟨_, rfl, by decide⟩,
    ⟨_, rfl, by decide⟩, by decide, by decide⟩

/-- O49. -/
theorem test_witness_EarlierReadsDoNotAffectSteps :
    ∃ t, step { State.reset with port := [.access (.read 0x08#7)], returned := [⟨2, 0#32⟩] } = .next t := ⟨_, rfl⟩

/-! ### Witnesses: the host side -/

/-- O50: the clauses by length: 0, 1, 4 and 5 entries. -/
theorem test_witness_NormalisedPaletteHasFourEntries :
    ([7#32] : List Color).length = 1 ∧ ([7#32, 7#32, 7#32, 7#32] : List Color).length = 4 ∧
    4 < ([1#32, 2#32, 3#32, 4#32, 5#32] : List Color).length ∧
    normalisePalette (some [7#32]) = some [7#32, 0xFFFFFFFF#32, 0x000000FF#32, 0x555555FF#32] := by decide

/-- O51: sizes at the edges of the clauses: 0, 8, 9, 15, 16. -/
theorem test_witness_PaddingAlignsEachAxis :
    (0 % 8 = 0 ∧ 16 % 8 = 0) ∧ (7 ≤ 8 ∧ 8 ≤ 8) ∧ (9 % 8 ≠ 0 ∧ 8 < 9) ∧ (15 % 8 ≠ 0 ∧ 8 < 15) ∧
    padAxis 9 = (4, 3) ∧ padAxis 15 = (1, 0) := by decide

/-- A 9 by 8 image: padding is 4 left and 3 right. -/
def image9x8 : Image := { width := 9, height := 8, rows := List.replicate 8 (List.replicate 9 0xFF#32), palette := none }

/-- O52. -/
theorem test_witness_MapCellIsPaddingOrPixel :
    wellShaped image9x8 = true ∧ 8 < image9x8.width ∧ 7 < image9x8.height ∧ 3 < (padAxis image9x8.width).1 ∧
    (padAxis image9x8.width).1 + image9x8.width ≤ 13 ∧ mapCell image9x8 3 0 = none ∧
    mapCell image9x8 4 0 = some 0xFF#32 ∧ mapCell image9x8 12 7 = some 0xFF#32 ∧ mapCell image9x8 13 7 = none := by decide

/-- O53. -/
theorem test_witness_NarrowUndoesWiden : narrow [1#8, 2#8, 3#8, 3#8] = some [1#8, 3#8] := by decide

/-- O55: hints at the edges of the clauses, and tile counts 0 and 1. -/
theorem test_witness_DimensionsFollowHints :
    ((0 : Int) < 1) ∧ ((0 : Int) ≤ 0) ∧ ((-1 : Int) ≤ 0) ∧ 0 < 1 ∧
    errorOf (dimensions 1 (some 0) none) = some .invalidDimension ∧
    errorOf (dimensions 0 (some 1) none) = some .invalidDimension ∧ errorOf (dimensions 1 (some 1) (some 1)) = none := by
  decide

/-- O56: enough tiles for 8 by 8, one too few for 16 by 8. -/
theorem test_witness_ReconstructedPixelFollowsFormula :
    (∀ x ∈ [List.replicate 64 0xFF#32], x.length = 64) ∧
    (∃ rows, rowsFrom [List.replicate 64 0xFF#32] 8 0 8 = .ok rows) ∧
    rowsFrom [List.replicate 64 0xFF#32] 16 0 8 = .error .malformedBuffer := ⟨by decide, ⟨_, rfl⟩, rfl⟩

/-- A tile with a pixel in its last cell, padding elsewhere. -/
def lastPixelTile (c : Color) : List (Option Color) := List.replicate 63 none ++ [some c]

/-- O57. -/
theorem test_witness_EncodedTileHoldsCellIndices :
    State.reset.block.fcause = 0#2 ∧ (lastPixelTile 0x000000FF#32).length = 64 ∧
    ∀ c, some c ∈ lastPixelTile 0x000000FF#32 → ∃ j, State.reset.block.palAt j = c := by
  refine ⟨rfl, rfl, fun c h => ⟨3#2, ?_⟩⟩
  simp [lastPixelTile] at h
  subst h
  decide

/-- O58: the first unsupported pixel is the last cell. -/
theorem test_witness_UnsupportedPixelFailsTile :
    (lastPixelTile 0x00FF00FF#32)[63]? = some (some 0x00FF00FF#32) ∧ NotInPalette State.reset.block 0x00FF00FF#32 ∧
    ∀ q c, q < 63 → (lastPixelTile 0x00FF00FF#32)[q]? = some (some c) → ∃ j, State.reset.block.palAt j = c := by
  refine ⟨rfl, by decide, fun q c hq h => ?_⟩
  have e : (lastPixelTile 0x00FF00FF#32)[q]? = some none := by
    rw [lastPixelTile, List.getElem?_append_left (by rw [List.length_replicate]; exact hq), List.getElem?_replicate,
      if_pos hq]
  rw [e] at h
  cases h

/-- O59 and O60, V88: 21 bytes are a tile and a partial one; 16 bytes are one tile. -/
theorem test_witness_stream_lengths :
    (List.replicate 21 0x28#8).length % 16 ≠ 0 ∧ (List.replicate 16 0x28#8).length % 16 = 0 := by decide

/-- O54: an 8 by 8 image of one colour encodes. -/
theorem test_witness_EncodedImageHasSixteenBytesPerTile :
    ∃ out, encodeImage { width := 8, height := 8, rows := List.replicate 8 (List.replicate 8 0xFF#32), palette := none }
      State.reset = .ok out := by
  have h : errorOf (encodeImage { width := 8, height := 8, rows := List.replicate 8 (List.replicate 8 0xFF#32), palette := none }
      State.reset) = none := by decide +kernel
  cases e : encodeImage { width := 8, height := 8, rows := List.replicate 8 (List.replicate 8 0xFF#32), palette := none }
      State.reset with
  | ok out => exact ⟨out, rfl⟩
  | error x => rw [e] at h; cases h

end Sys2Proof.Tests
end

section
/-!
SUPPORT. What an instruction can do to the block, told as plain updates: each fault under its own cause, and each other
effect by the registers it writes.
-/

namespace Sys2Proof.Machine

/-- The faults an instruction can raise, each with the cause, value and position it records (60_exceptions R130). -/
inductive RaisedFault (i : Instr) (b : Block) : BitVec 2 → BitVec 32 → BitVec 6 → Prop where
  | unsupportedColor (p : Pos) (h : canonicalInstr i = .quant p) (hn : NotInPalette b b.color) :
    RaisedFault i b 1#2 b.color p
  | malformedBuffer (h : canonicalInstr i = .unpack) (hm : b.pvalid ≠ 0xFFFF#16) :
    RaisedFault i b 2#2 (b.pvalid.setWidth 32) 0#6
  | illegalCommand (w : CmdWord) (h : i = .wr 0x00#7 (w.setWidth 32)) (hw : ReservedWord w) :
    RaisedFault i b 3#2 (w.setWidth 32) 0#6

/-- All an instruction but RD and SRST can do to a ready block, with both outcomes of QUANT and of UNPACK apart. -/
inductive BlockEffect (i : Instr) (b : Block) : Block → Prop where
  | pack (h : canonicalInstr i = .pack) : BlockEffect i b (packBlock b)
  | unpack (h : canonicalInstr i = .unpack) : BlockEffect i b { b with idx := unpackTile b.pln, pvalid := 0x0000#16 }
  | cell (p : Pos) (v : Index) (h : canonicalInstr i = .quant p ∨ canonicalInstr i = .qpad p) :
    BlockEffect i b (b.setIdx p v)
  | color (p : Pos) (v : Color) (h : canonicalInstr i = .deq p) : BlockEffect i b (b.setColor v)
  | dataWrite (r : Reg) (v : PortWord) (h : i = .wr (numOfReg r) v) : BlockEffect i b (b.writeReg r v)
  | fault {cause : BitVec 2} {val : BitVec 32} {pos : BitVec 6} (h : RaisedFault i b cause val pos) :
    BlockEffect i b (b.raiseFault cause val pos)

theorem GatedEffect.blockEffect {i : Instr} {f : Block → Block} (g : GatedEffect i f) (b : Block) :
    BlockEffect i b (f b) := by
  cases g with
  | pack h => exact .pack h
  | unpack h =>
    rcases unpackBlock_cases b with ⟨-, e⟩ | ⟨hm, e⟩
    · exact e ▸ .unpack h
    · exact e ▸ .fault (.malformedBuffer h hm)
  | quant p h =>
    rcases quantCell_cases p b with ⟨j, -, e⟩ | ⟨hn, e⟩
    · exact e ▸ .cell p j (.inl h)
    · exact e ▸ .fault (.unsupportedColor p h hn)
  | qpad p h => exact .cell p 0#2 (.inr h)
  | deq p h => exact .color p _ h
  | reservedWord w h hw => exact .fault (.illegalCommand w h hw)
  | dataWrite r v h hr hf => exact .dataWrite r v h

/-- All an instruction that completes can do to the block: keep it, reset it, or have its effect on a ready one. -/
theorem exec_next_block_cases {i : Instr} {s t : State} (h : exec i s = .next t) :
    t.block = s.block ∨ (canonicalInstr i = .srst ∧ t.block = Block.reset) ∨
    (s.block.fcause = 0#2 ∧ BlockEffect i s.block t.block) := by
  cases exec_next_cases h with
  | rd r => exact .inl rfl
  | srst hi => exact .inr (.inl ⟨hi, rfl⟩)
  | gated f g =>
    rcases Block.whenReady_cases f s.block with ⟨hready, e⟩ | ⟨-, e⟩
    · exact .inr (.inr ⟨hready, e ▸ g.blockEffect s.block⟩)
    · exact .inl e

/-- An effect on a ready block takes one of the three faults or leaves the fault record alone. -/
theorem BlockEffect.record_cases {i : Instr} {b c : Block} (e : BlockEffect i b c) :
    (c.fcause = b.fcause ∧ c.fval = b.fval ∧ c.fpos = b.fpos) ∨
    ∃ cause val pos, RaisedFault i b cause val pos ∧ c = b.raiseFault cause val pos := by
  cases e with
  | fault h => exact .inr ⟨_, _, _, h, rfl⟩
  | dataWrite r v => exact .inl (b.writeReg_fault r v)
  | pack | unpack | cell | color => exact .inl ⟨rfl, rfl, rfl⟩

end Sys2Proof.Machine
end

section
/-!
SUPPORT. Invariants of the block: what is enough for every step, and so for every state reached, to keep one.
-/

namespace Sys2Proof.Machine

/-- A property of the block that holds of the reset block and that every effect on a ready block keeps. -/
structure BlockInvariant (P : Block → Prop) : Prop where
  reset : P Block.reset
  effect : ∀ {i : Instr} {b c : Block}, P b → b.fcause = 0#2 → BlockEffect i b c → P c

variable {P : Block → Prop}

theorem BlockInvariant.exec_keeps (inv : BlockInvariant P) {i : Instr} {s t : State} (hs : P s.block)
    (h : exec i s = .next t) : P t.block := by
  rcases exec_next_block_cases h with e | ⟨-, e⟩ | ⟨hready, e⟩
  · exact e ▸ hs
  · exact e ▸ inv.reset
  · exact inv.effect hs hready e

theorem BlockInvariant.step_keeps (inv : BlockInvariant P) {s t : State} (hs : P s.block) (h : step s = .next t) :
    P t.block := by
  cases step_next_cases h with
  | idle => exact hs
  | reset => exact inv.reset
  | instr a rest i t hp hd hx => exact inv.exec_keeps (s := { s with port := rest }) hs hx

theorem BlockInvariant.reaches (inv : BlockInvariant P) {s t : State} (hs : P s.block) (h : Reaches s t) :
    P t.block := by
  induction h with
  | refl => exact hs
  | step _ e ih => exact inv.step_keeps ih e

/-! ### The fault record and its evidence -/

/-- A ready block with no value and no position meets every clause, those about a cause vacuously. -/
theorem FaultRecordInv.of_ready {b : Block} (hc : b.fcause = 0#2) (hv : b.fval = 0#32) (hp : b.fpos = 0#6) :
    FaultRecordInv b := by
  constructor <;> simp [hc, hv, hp]

theorem FaultEvidenceInv.of_ready {b : Block} (hc : b.fcause = 0#2) : FaultEvidenceInv b := by
  constructor <;> simp [hc]

/-! ### What a value zero-extended to FVAL holds above its own width and below -/

theorem extractLsb'_setWidth_above {w : Nat} (x : BitVec w) (n k : Nat) :
    (x.setWidth n).extractLsb' w k = 0#k := by
  ext i hi
  simp

theorem extractLsb'_setWidth_self {w n : Nat} (x : BitVec w) (h : w ≤ n) : (x.setWidth n).extractLsb' 0 w = x := by
  rw [← BitVec.setWidth_eq_extractLsb' h, BitVec.setWidth_setWidth_of_le x h, BitVec.setWidth_eq]

/-! ### Each fault records what the invariants ask -/

variable {i : Instr} {b : Block} {cause : BitVec 2} {val : BitVec 32} {pos : BitVec 6}

theorem RaisedFault.recordInv (h : RaisedFault i b cause val pos) : FaultRecordInv (b.raiseFault cause val pos) := by
  cases h with
  | unsupportedColor _ _ hn => exact ⟨by simp, by simp, by simp, by simp, fun _ => hn⟩
  | malformedBuffer _ hm =>
    have hmask : (b.pvalid.setWidth 32).extractLsb' 0 16 ≠ 0xFFFF#16 := by
      rwa [extractLsb'_setWidth_self b.pvalid (by decide)]
    exact ⟨by simp, by simp, fun _ => ⟨extractLsb'_setWidth_above b.pvalid 32 16, hmask⟩, by simp, by simp⟩
  | illegalCommand w _ hw =>
    have hword : ReservedWord ((w.setWidth 32).extractLsb' 0 8) := by
      rwa [extractLsb'_setWidth_self w (by decide)]
    exact ⟨by simp, by simp, by simp, fun _ => ⟨extractLsb'_setWidth_above w 32 24, hword⟩, by simp⟩

theorem RaisedFault.evidenceInv (h : RaisedFault i b cause val pos) :
    FaultEvidenceInv (b.raiseFault cause val pos) := by
  cases h with
  | unsupportedColor _ _ hn => exact ⟨fun _ => ⟨rfl, hn⟩, by simp⟩
  | malformedBuffer _ hm => exact ⟨by simp, fun _ => ⟨rfl, hm⟩⟩
  | illegalCommand => constructor <;> simp

theorem faultRecordInv_blockInvariant : BlockInvariant FaultRecordInv where
  reset := .of_ready rfl rfl rfl
  effect hb hready e := by
    rcases e.record_cases with ⟨hc, hv, hp⟩ | ⟨_, _, _, h, rfl⟩
    · obtain ⟨hval, hpos⟩ := hb.ready hready
      exact .of_ready (hc.trans hready) (hv.trans hval) (hp.trans hpos)
    · exact h.recordInv

theorem faultEvidenceInv_blockInvariant : BlockInvariant FaultEvidenceInv where
  reset := .of_ready rfl
  effect _ hready e := by
    rcases e.record_cases with ⟨hc, -, -⟩ | ⟨_, _, _, h, rfl⟩
    · exact .of_ready (hc.trans hready)
    · exact h.evidenceInv

end Sys2Proof.Machine

open Sys2Proof Sys2Proof.Machine

/-- Settles O45: a step resets the block, keeps it, leaves a ready record as it was, or takes one fault. -/
theorem stepKeepsFaultRecordInvariant : Obligations.StepKeepsFaultRecordInvariant :=
  fun _ _ hs h => faultRecordInv_blockInvariant.step_keeps hs h

/-- Settles O46: a fault is taken with its evidence in COLOR and PAL or in PVALID, and a faulted block is frozen. -/
theorem stepKeepsFaultEvidence : Obligations.StepKeepsFaultEvidence :=
  fun _ _ hs h => faultEvidenceInv_blockInvariant.step_keeps hs h

/-- Settles O44: the reset block is ready, with an empty fault record. -/
theorem resetMeetsFaultRecordInvariant : Obligations.ResetMeetsFaultRecordInvariant :=
  ⟨faultRecordInv_blockInvariant.reset, faultEvidenceInv_blockInvariant.reset⟩

/-- Settles O47, by induction on the steps from reset; a cell has two bits, so it is at most 3. -/
theorem reachableStatesMeetFaultRecordInvariant : Obligations.ReachableStatesMeetFaultRecordInvariant :=
  fun _ t h =>
    ⟨faultRecordInv_blockInvariant.reaches faultRecordInv_blockInvariant.reset h,
      faultEvidenceInv_blockInvariant.reaches faultEvidenceInv_blockInvariant.reset h,
      fun p => Nat.le_of_lt_succ (t.block.idxAt p).isLt⟩

end

section
/-!
SUPPORT. Which registers an instruction can change (10_state R10, the column "written by").
-/

namespace Sys2Proof.Machine

/-! ### A register that differs is of a register file that differs -/

theorem Block.pal_ne_of_palAt_ne {b c : Block} {j : BitVec 2} (h : c.palAt j ≠ b.palAt j) : c.pal ≠ b.pal :=
  fun e => h (by simp only [palAt, e])

theorem Block.idx_ne_of_idxAt_ne {b c : Block} {p : Pos} (h : c.idxAt p ≠ b.idxAt p) : c.idx ≠ b.idx :=
  fun e => h (by simp only [idxAt, e])

theorem Block.pln_ne_of_plnAt_ne {b c : Block} {j : BitVec 4} (h : c.plnAt j ≠ b.plnAt j) : c.pln ≠ b.pln :=
  fun e => h (by simp only [plnAt, e])

/-! ### A data write changes the register it names, and PLN[j] its bit of PVALID -/

section
variable (b : Block) (v : PortWord) {r : Reg}

theorem Block.writeReg_palAt {j : BitVec 2} (h : r ≠ .pal j) : (b.writeReg r v).palAt j = b.palAt j := by
  cases r with
  | pal k => exact (b.palAt_setPal k j v).trans (if_neg fun e => h (congrArg _ e.symm))
  | _ => rfl

theorem Block.writeReg_color (h : r ≠ .color) : (b.writeReg r v).color = b.color := by
  cases r with
  | color => exact absurd rfl h
  | _ => rfl

theorem Block.writeReg_idxAt {p : Pos} (h : r ≠ .idx p) : (b.writeReg r v).idxAt p = b.idxAt p := by
  cases r with
  | idx q => exact (b.idxAt_setIdx q p _).trans (if_neg fun e => h (congrArg _ e.symm))
  | _ => rfl

theorem Block.writeReg_plnAt {j : BitVec 4} (h : r ≠ .pln j) : (b.writeReg r v).plnAt j = b.plnAt j := by
  cases r with
  | pln k => exact (b.plnAt_supplyPln k j _).trans (if_neg fun e => h (congrArg _ e.symm))
  | _ => rfl

theorem Block.writeReg_pvalid {j : BitVec 4} (h : r ≠ .pln j) :
    (b.writeReg r v).pvalid.getLsbD j.toNat = b.pvalid.getLsbD j.toNat := by
  cases r with
  | pln k =>
    have hne : j.toNat ≠ k.toNat := fun e => h (BitVec.eq_of_toNat_eq e ▸ rfl)
    simp [writeReg, getLsbD_pvalidSupply, hne]
  | _ => rfl

end

/-! ### The instruction behind a changed register -/

variable {i : Instr} {b c : Block}

theorem BlockEffect.palAt_changed (e : BlockEffect i b c) {j : BitVec 2} (h : c.palAt j ≠ b.palAt j) :
    ∃ v, i = .wr (numOfReg (.pal j)) v := by
  cases e with
  | dataWrite r v hi =>
    obtain rfl : r = .pal j := by_contra fun hr => h (b.writeReg_palAt v hr)
    exact ⟨v, hi⟩
  | pack | unpack | cell | color | fault => exact (Block.pal_ne_of_palAt_ne h rfl).elim

theorem BlockEffect.color_changed (e : BlockEffect i b c) (h : c.color ≠ b.color) :
    (∃ p, canonicalInstr i = .deq p) ∨ ∃ v, i = .wr (numOfReg .color) v := by
  cases e with
  | color p v hi => exact .inl ⟨p, hi⟩
  | dataWrite r v hi =>
    obtain rfl : r = .color := by_contra fun hr => h (b.writeReg_color v hr)
    exact .inr ⟨v, hi⟩
  | pack | unpack | cell | fault => exact (h rfl).elim

theorem BlockEffect.idxAt_changed (e : BlockEffect i b c) {p : Pos} (h : c.idxAt p ≠ b.idxAt p) :
    canonicalInstr i = .quant p ∨ canonicalInstr i = .qpad p ∨ canonicalInstr i = .unpack ∨
      ∃ v, i = .wr (numOfReg (.idx p)) v := by
  cases e with
  | unpack hi => exact .inr (.inr (.inl hi))
  | cell q v hi =>
    obtain rfl : p = q := by_contra fun hq => h ((b.idxAt_setIdx q p v).trans (if_neg hq))
    exact hi.imp_right .inl
  | dataWrite r v hi =>
    obtain rfl : r = .idx p := by_contra fun hr => h (b.writeReg_idxAt v hr)
    exact .inr (.inr (.inr ⟨v, hi⟩))
  | pack | color | fault => exact (Block.idx_ne_of_idxAt_ne h rfl).elim

theorem BlockEffect.plnAt_changed (e : BlockEffect i b c) {j : BitVec 4} (h : c.plnAt j ≠ b.plnAt j) :
    canonicalInstr i = .pack ∨ ∃ v, i = .wr (numOfReg (.pln j)) v := by
  cases e with
  | pack hi => exact .inl hi
  | dataWrite r v hi =>
    obtain rfl : r = .pln j := by_contra fun hr => h (b.writeReg_plnAt v hr)
    exact .inr ⟨v, hi⟩
  | unpack | cell | color | fault => exact (Block.pln_ne_of_plnAt_ne h rfl).elim

theorem BlockEffect.pvalid_changed (e : BlockEffect i b c) {j : BitVec 4}
    (h : c.pvalid.getLsbD j.toNat ≠ b.pvalid.getLsbD j.toNat) :
    canonicalInstr i = .pack ∨ canonicalInstr i = .unpack ∨ ∃ v, i = .wr (numOfReg (.pln j)) v := by
  cases e with
  | pack hi => exact .inl hi
  | unpack hi => exact .inr (.inl hi)
  | dataWrite r v hi =>
    obtain rfl : r = .pln j := by_contra fun hr => h (b.writeReg_pvalid v hr)
    exact .inr (.inr ⟨v, hi⟩)
  | cell | color | fault => exact (h rfl).elim

theorem BlockEffect.record_changed (e : BlockEffect i b c)
    (h : (c.fcause, c.fval, c.fpos) ≠ (b.fcause, b.fval, b.fpos)) :
    (∃ p, canonicalInstr i = .quant p) ∨ canonicalInstr i = .unpack ∨
      ∃ w : CmdWord, ReservedWord w ∧ i = .wr 0x00#7 (w.setWidth 32) := by
  rcases e.record_cases with ⟨hc, hv, hp⟩ | ⟨_, _, _, hf, -⟩
  · exact absurd (by rw [hc, hv, hp]) h
  · cases hf with
    | unsupportedColor _ hi => exact .inl ⟨_, hi⟩
    | malformedBuffer hi => exact .inr (.inl hi)
    | illegalCommand w hi hw => exact .inr (.inr ⟨w, hw, hi⟩)

/-! ### The host's side of the port -/

theorem exec_next_port {s t : State} (h : exec i s = .next t) : t.port = s.port := by
  cases exec_next_cases h with
  | rd | srst | gated => rfl

theorem exec_next_returned_changed {s t : State} (h : exec i s = .next t) (hne : t.returned ≠ s.returned) :
    ∃ rn, i = .rd rn := by
  cases exec_next_cases h with
  | rd r hi => exact ⟨_, hi⟩
  | srst | gated => exact absurd rfl hne

/-- Where an instruction other than SRST changes what `read` sees of the block, it has an effect on a ready block. -/
theorem blockEffect_of_changed {α : Type} (read : Block → α) {s t : State} (h : exec i s = .next t)
    (hi : canonicalInstr i ≠ .srst) (hne : read t.block ≠ read s.block) : BlockEffect i s.block t.block := by
  rcases exec_next_block_cases h with e | ⟨hs, -⟩ | ⟨-, e⟩
  · exact absurd (congrArg read e) hne
  · exact absurd hs hi
  · exact e

end Sys2Proof.Machine

open Sys2Proof Sys2Proof.Machine

/-- Settles O48, register by register: a changed register shows an effect on a ready block that writes it. -/
theorem onlyListedInstrsWriteEachRegister : Obligations.OnlyListedInstrsWriteEachRegister :=
  fun _ _ _ h hi =>
    ⟨exec_next_port h, exec_next_returned_changed h,
      fun j hne => (blockEffect_of_changed (·.palAt j) h hi hne).palAt_changed hne,
      fun hne => (blockEffect_of_changed (·.color) h hi hne).color_changed hne,
      fun p hne => (blockEffect_of_changed (·.idxAt p) h hi hne).idxAt_changed hne,
      fun j hne => (blockEffect_of_changed (·.plnAt j) h hi hne).plnAt_changed hne,
      fun j hne => (blockEffect_of_changed (·.pvalid.getLsbD j.toNat) h hi hne).pvalid_changed hne,
      fun hne => (blockEffect_of_changed (fun b => (b.fcause, b.fval, b.fpos)) h hi hne).record_changed hne⟩

end

section
/-!
SUPPORT. One form for every instruction, whatever the state: refused, an action on the block alone, or a read.
-/

namespace Sys2Proof.Machine

/-- A command word acts on the block alone. -/
theorem execCmdWord_onBlock (w : CmdWord) : ∃ f, ∀ s, execCmdWord w s = s.onBlock f := by
  rcases decodeCommand_cases w with ⟨e, -⟩ | ⟨e, -⟩ | ⟨e, -⟩ | ⟨e, -⟩ | ⟨e, -⟩ | ⟨e, -⟩ | ⟨-, hw⟩
  on_goal 7 => exact ⟨_, execCmdWord_reserved hw⟩
  all_goals exact ⟨_, execCmdWord_defined e⟩

/-- The form of an instruction does not depend on the state it runs in. -/
inductive ExecForm (i : Instr) : Prop where
  | refused (r : Refusal) (h : ∀ s, exec i s = .refused r)
  | onBlock (f : Block → Block) (h : ∀ s, exec i s = s.onBlock f)
  | giveBack (v : Block → ReadValue) (h : ∀ s, exec i s = s.giveBack (v s.block))

theorem execForm (i : Instr) : ExecForm i := by
  cases i with
  | pack | unpack | srst | quant | qpad | deq => exact .onBlock _ fun _ => rfl
  | rd rn =>
    cases hr : regOfNum rn with
    | none => exact .refused (.reservedRegister rn) fun s => by simp [exec, execRd, hr]
    | some r =>
      obtain rfl := numOfReg_of_regOfNum hr
      exact .giveBack (·.readValue r) (exec_rd r)
  | wr rn v =>
    cases hr : regOfNum rn with
    | none => exact .refused (.reservedRegister rn) fun s => by simp [exec, execWr, hr]
    | some r =>
      by_cases hf : fitsReg r v = true
      · obtain rfl := numOfReg_of_regOfNum hr
        by_cases hc : r = .cmd
        · obtain ⟨f, h⟩ := execCmdWord_onBlock (cmdWordOf v)
          exact .onBlock f fun s => by rw [exec_wr s hf, execRegWrite, if_pos hc, h]
        · exact .onBlock _ fun s => by rw [exec_wr s hf, execRegWrite, if_neg hc]
      · exact .refused (.valueTooWide rn v) fun s => by simp [exec, execWr, hr, hf]

end Sys2Proof.Machine
end

section
/-!
SUPPORT. What the host has read takes no part in a step.
-/

namespace Sys2Proof.Machine

/-- An instruction that completes appends to what was returned, whatever that was, the same values. -/
theorem exec_next_of_returned {i : Instr} {s t : State} (h : exec i s = .next t) (r : List ReadValue) :
    ∃ new, t.returned = s.returned ++ new ∧
      exec i { s with returned := r } = .next { t with returned := r ++ new } := by
  cases execForm i with
  | refused x hx => rw [hx] at h; cases h
  | onBlock f hf =>
    rw [hf, State.onBlock_eq_next] at h
    subst h
    exact ⟨[], by simp, by simp [hf, State.onBlock]⟩
  | giveBack v hv =>
    rw [hv, State.giveBack_eq_next] at h
    subst h
    exact ⟨[v s.block], rfl, hv _⟩

end Sys2Proof.Machine

open Sys2Proof Sys2Proof.Machine

/-- Settles O49: idle and reset steps return nothing, and an instruction's form does not depend on the state. -/
theorem earlierReadsDoNotAffectSteps : Obligations.EarlierReadsDoNotAffectSteps := by
  intro s t r h
  cases step_next_cases h with
  | idle hp => exact ⟨[], by simp, by simp [step, fetch_idle (s := { s with returned := r }) hp]⟩
  | reset rest hp => exact ⟨[], by simp, by simp [step, fetch_reset (s := { s with returned := r }) hp]⟩
  | instr a rest i t hp hd hx =>
    obtain ⟨new, hnew, hr⟩ := exec_next_of_returned hx r
    refine ⟨new, hnew, ?_⟩
    rw [step, fetch_instr (s := { s with returned := r }) hp hd]
    exact hr

/-! ### Reset -/

/-- Settles O9: the step takes the event from the port and resets the block. -/
theorem resetInputResetsBlock : Obligations.ResetInputResetsBlock := by
  intro s rest hp
  rw [step, fetch_reset hp]
  rfl

/-- Settles O10, the cells and plane bytes by the replicated vectors of the reset block. -/
theorem resetLeavesResetValues : Obligations.ResetLeavesResetValues := by
  refine ⟨rfl, rfl, rfl, rfl, rfl, fun p => ?_, fun j => ?_, rfl, rfl, rfl, rfl⟩
  · simp [State.reset, Block.reset, Block.idxAt]
  · simp [State.reset, Block.reset, Block.plnAt]

end


section
/-!
SUPPORT. The accesses a host may issue and those the model refuses: register by register, and on the port (20_memory
R33, R45; 48_host_procedures R126, R128).
-/

namespace Sys2Proof.Machine

/-! ### Accesses by the register they name -/

theorem exec_rd_of_regOfNum_none {rn : RegNum} (h : regOfNum rn = none) (s : State) :
    exec (.rd rn) s = .refused (.reservedRegister rn) := by
  simp [exec, execRd, h]

theorem exec_wr_of_regOfNum_none {rn : RegNum} (h : regOfNum rn = none) (v : PortWord) (s : State) :
    exec (.wr rn v) s = .refused (.reservedRegister rn) := by
  simp [exec, execWr, h]

theorem exec_wr_tooWide {r : Reg} {v : PortWord} (h : fitsReg r v ≠ true) (s : State) :
    exec (.wr (numOfReg r) v) s = .refused (.valueTooWide (numOfReg r) v) := by
  simp [exec, execWr, regOfNum_numOfReg, h]

/-- A write to a register other than CMD is that data write behind the gate. -/
theorem exec_wr_data {r : Reg} {v : PortWord} (hr : r ≠ .cmd) (hf : fitsReg r v = true) (s : State) :
    exec (.wr (numOfReg r) v) s = s.onBlock (Block.whenReady (·.writeReg r v)) := by
  rw [exec_wr s hf, execRegWrite, if_neg hr]

/-! ### Well-formedness decides whether an instruction completes -/

theorem wellFormed_rd {rn : RegNum} : WellFormed (.rd rn) ↔ ∃ r, rn = numOfReg r := by
  simp [WellFormed, Instr.wellFormed, Option.isSome_iff_exists, regOfNum_eq_some]

theorem wellFormed_wr {rn : RegNum} {v : PortWord} :
    WellFormed (.wr rn v) ↔ ∃ r, rn = numOfReg r ∧ fitsReg r v = true := by
  simp [WellFormed, Instr.wellFormed, Option.any_eq_true, regOfNum_eq_some]

theorem exec_next_of_wellFormed {i : Instr} (h : WellFormed i) (s : State) : ∃ t, exec i s = .next t := by
  cases i with
  | pack | unpack | srst | quant | qpad | deq => exact ⟨_, rfl⟩
  | rd rn =>
    obtain ⟨r, rfl⟩ := wellFormed_rd.1 h
    exact ⟨_, exec_rd r s⟩
  | wr rn v =>
    obtain ⟨r, rfl, hf⟩ := wellFormed_wr.1 h
    by_cases hr : r = .cmd
    · obtain ⟨f, hw⟩ := execCmdWord_onBlock (cmdWordOf v)
      exact ⟨_, by rw [exec_wr s hf, execRegWrite, if_pos hr, hw, State.onBlock]⟩
    · exact ⟨_, exec_wr_data hr hf s⟩

theorem exec_refused_of_not_wellFormed {i : Instr} (h : ¬ WellFormed i) (s : State) :
    ∃ r, exec i s = .refused r := by
  cases i with
  | pack | unpack | srst | quant | qpad | deq => exact absurd rfl h
  | rd rn =>
    cases hr : regOfNum rn with
    | none => exact ⟨_, exec_rd_of_regOfNum_none hr s⟩
    | some r => exact absurd (wellFormed_rd.2 ⟨r, regOfNum_eq_some.1 hr⟩) h
  | wr rn v =>
    cases hr : regOfNum rn with
    | none => exact ⟨_, exec_wr_of_regOfNum_none hr v s⟩
    | some r =>
      obtain rfl := regOfNum_eq_some.1 hr
      exact ⟨_, exec_wr_tooWide (fun hf => h (wellFormed_wr.2 ⟨r, rfl, hf⟩)) s⟩

theorem wellFormed_of_exec_next {i : Instr} {s t : State} (h : exec i s = .next t) : WellFormed i := by
  by_contra hi
  obtain ⟨r, hr⟩ := exec_refused_of_not_wellFormed hi s
  cases h.symm.trans hr

/-! ### Accesses on the port -/

theorem wellFormed_of_decodeCommand {w : CmdWord} {i : Instr} (h : decodeCommand w = .ok i) : WellFormed i := by
  rcases decodeCommand_cases w with ⟨e, -⟩ | ⟨e, -⟩ | ⟨e, -⟩ | ⟨e, -⟩ | ⟨e, -⟩ | ⟨e, -⟩ | ⟨e, -⟩
  on_goal 7 => cases h.symm.trans e
  all_goals
    cases h.symm.trans e
    rfl

theorem decode_write_of_regOfNum_none {rn : RegNum} (h : regOfNum rn = none) (v : PortWord) :
    decode (.write rn v) = .error (.reservedRegister rn) := by
  simp [decode, h]

theorem decode_read_of_regOfNum_none {rn : RegNum} (h : regOfNum rn = none) :
    decode (.read rn) = .error (.reservedRegister rn) := by
  simp [decode, h]

/-- The decoder checks the number and the width before it answers, and every command is well-formed. -/
theorem wellFormed_of_decode {a : Access} {i : Instr} (h : decode a = .ok i) : WellFormed i := by
  cases a with
  | read rn =>
    cases hr : regOfNum rn with
    | none => cases (decode_read_of_regOfNum_none hr).symm.trans h
    | some r =>
      obtain rfl := regOfNum_eq_some.1 hr
      cases (decode_rdAccess r).symm.trans h
      exact wellFormed_rd.2 ⟨r, rfl⟩
  | write rn v =>
    cases hr : regOfNum rn with
    | none => cases (decode_write_of_regOfNum_none hr v).symm.trans h
    | some r =>
      obtain rfl := regOfNum_eq_some.1 hr
      simp only [decode, hr] at h
      split at h
      next hf =>
        have hwr : WellFormed (.wr (numOfReg r) v) := wellFormed_wr.2 ⟨r, rfl, hf⟩
        split at h
        next =>
          split at h
          next c hc => exact Except.ok.inj h ▸ wellFormed_of_decodeCommand hc
          next => exact Except.ok.inj h ▸ hwr
        next => exact Except.ok.inj h ▸ hwr
      next => cases h

theorem step_instr {s : State} {a : Access} {rest : List HostEvent} {i : Instr} (hp : s.port = .access a :: rest)
    (hd : decode a = .ok i) : step s = exec i { s with port := rest } := by
  rw [step, fetch_instr hp hd]

theorem step_bad {s : State} {a : Access} {rest : List HostEvent} {e : DecodeError}
    (hp : s.port = .access a :: rest) (hd : decode a = .error e) : step s = .refused (refusalOf e) := by
  rw [step, fetch_bad hp hd]

end Sys2Proof.Machine

open Sys2Proof Sys2Proof.Machine

/-- Settles O7: what decodes is a read, a write that fits its register, or a command. -/
theorem stepRunsDecodedInstr : Obligations.StepRunsDecodedInstr :=
  fun _ _ _ _ hp hd => ⟨wellFormed_of_decode hd, step_instr hp hd⟩

/-- Settles O21: a reserved number names no register, so neither `exec` nor the decoder has a meaning for it. -/
theorem reservedNumberHasNoStep : Obligations.ReservedNumberHasNoStep := by
  intro s rn v rest hrn
  have hnone := regOfNum_reserved rn hrn
  exact ⟨exec_rd_of_regOfNum_none hnone s, exec_wr_of_regOfNum_none hnone v s,
    fun hp => step_bad hp (decode_read_of_regOfNum_none hnone),
    fun hp => step_bad hp (decode_write_of_regOfNum_none hnone v)⟩

/-- Settles O22: well-formedness asks just what `exec` checks before it acts. -/
theorem wellFormedInstrAlwaysCompletes : Obligations.WellFormedInstrAlwaysCompletes := by
  refine fun i s => ⟨fun h => ?_, fun h => exec_refused_of_not_wellFormed h s⟩
  obtain ⟨t, ht⟩ := exec_next_of_wellFormed h s
  exact ⟨t, ht, exec_next_port ht⟩

/-- Settles O11, register by register of the map. -/
theorem readReturnsRegisterAtItsWidth : Obligations.ReadReturnsRegisterAtItsWidth :=
  fun s => ⟨exec_rd .cmd s, exec_rd .fcause s, exec_rd .fval s, exec_rd .fpos s, exec_rd .pvalid s, exec_rd .color s,
    fun j => exec_rd (.pal j) s, fun j => exec_rd (.pln j) s, fun p => exec_rd (.idx p) s,
    fun rn hrn => exec_rd_of_regOfNum_none (regOfNum_reserved rn hrn) s⟩

/-- Settles O12: a read leaves the block as it was, so a second one finds the same value. -/
theorem readTwiceReturnsSameValue : Obligations.ReadTwiceReturnsSameValue := by
  intro rn s t h
  obtain ⟨r, rfl⟩ := wellFormed_rd.1 (wellFormed_of_exec_next h)
  cases (exec_rd r s).symm.trans h
  exact ⟨rfl, rfl, s.block.readValue r, rfl, exec_rd r _⟩

end

section
/-!
SUPPORT. A data write done twice, and what each register reads as after it (20_memory R41, R42).
-/

namespace Sys2Proof.Machine

/-! ### A write done twice -/

theorem pvalidSupply_pvalidSupply_same (m : BitVec 16) (j : BitVec 4) :
    pvalidSupply (pvalidSupply m j) j = pvalidSupply m j := by
  rw [pvalidSupply, pvalidSupply, BitVec.or_assoc, BitVec.or_self]

theorem Block.writeReg_writeReg_same (b : Block) (r : Reg) (v : PortWord) :
    (b.writeReg r v).writeReg r v = b.writeReg r v := by
  cases r with
  | pal j => simp [writeReg, setPal]
  | pln j => simp [writeReg, supplyPln, pvalidSupply_pvalidSupply_same]
  | idx p => simp [writeReg, setIdx]
  | _ => rfl

/-- What is done twice with the effect of once stays so behind the gate, whether or not the first time closes it. -/
theorem Block.whenReady_whenReady_same {f : Block → Block} (hf : ∀ b, f (f b) = f b) (b : Block) :
    (b.whenReady f).whenReady f = b.whenReady f := by
  rcases Block.whenReady_cases f b with ⟨-, e⟩ | ⟨-, e⟩
  · rw [e]
    rcases Block.whenReady_cases f (f b) with ⟨-, e'⟩ | ⟨-, e'⟩
    · rw [e', hf]
    · exact e'
  · rw [e, e]

/-! ### A read after a write -/

/-- A data register reads as the value written to it, when that value fits it (40_register_access R61 to R64). -/
theorem Block.readReg_writeReg_same (b : Block) {r : Reg} {v : PortWord}
    (hr : r = .color ∨ (∃ j, r = .pal j) ∨ (∃ j, r = .pln j) ∨ ∃ p, r = .idx p) (hf : fitsReg r v = true) :
    (b.writeReg r v).readReg r = v := by
  replace hf : v.toNat < 2 ^ regWidth r := of_decide_eq_true hf
  rcases hr with rfl | ⟨j, rfl⟩ | ⟨j, rfl⟩ | ⟨p, rfl⟩
  · rfl
  · exact (b.palAt_setPal j j v).trans (if_pos rfl)
  · rw [readReg, writeReg, plnAt_supplyPln, if_pos rfl]
    exact BitVec.setWidth_setWidth_eq_self hf
  · rw [readReg, writeReg, idxAt_setIdx, if_pos rfl]
    exact BitVec.setWidth_setWidth_eq_self hf

/-- A write leaves every other register as it was, but for PVALID, whose bits the PLN writes set. -/
theorem Block.readReg_writeReg_of_ne (b : Block) {q r : Reg} (v : PortWord) (hqr : q ≠ r) (hq : q ≠ .pvalid) :
    (b.writeReg r v).readReg q = b.readReg q := by
  obtain ⟨hcause, hval, hpos⟩ := b.writeReg_fault r v
  cases q with
  | cmd => rfl
  | fcause => rw [readReg, readReg, hcause]
  | fval => exact hval
  | fpos => rw [readReg, readReg, hpos]
  | pvalid => exact absurd rfl hq
  | color => exact b.writeReg_color v hqr.symm
  | pal j => exact b.writeReg_palAt v hqr.symm
  | pln j => rw [readReg, readReg, b.writeReg_plnAt v hqr.symm]
  | idx p => rw [readReg, readReg, b.writeReg_idxAt v hqr.symm]

end Sys2Proof.Machine

open Sys2Proof Sys2Proof.Machine

/-- Settles O23: a write that completes is a data write behind the gate, and both are idempotent. -/
theorem sameDataWriteTwiceIsOnce : Obligations.SameDataWriteTwiceIsOnce := by
  intro rn v s t hrn h
  obtain ⟨r, rfl, hf⟩ := wellFormed_wr.1 (wellFormed_of_exec_next h)
  have hr : r ≠ .cmd := fun e => hrn (e ▸ rfl)
  rw [exec_wr_data hr hf, State.onBlock_eq_next] at h ⊢
  subst h
  rw [Block.whenReady_whenReady_same (·.writeReg_writeReg_same r v)]

/-- Settles O24: the register written reads as the value, and each other but PVALID as before. -/
theorem readReturnsLatestWrite : Obligations.ReadReturnsLatestWrite := by
  intro r v s t hready hr h
  obtain ⟨r', hnum, hf⟩ := wellFormed_wr.1 (wellFormed_of_exec_next h)
  obtain rfl := numOfReg_injective hnum
  rw [exec_wr_data hr hf, State.onBlock_whenReady_ready _ hready] at h
  cases h
  refine ⟨fun hdata => ?_, fun q hqr hq => ⟨s.block.readValue q, exec_rd q s, ?_⟩⟩
  · rw [exec_rd, Block.readValue, Block.readReg_writeReg_same _ hdata hf]
  · rw [exec_rd, Block.readValue, Block.readReg_writeReg_of_ne _ v hqr hq, Block.readValue]

end

section
/-!
SUPPORT. Encoding and decoding undo each other: command words by the opcode map, instructions by the access that issues
them, descriptors by their bits (30_encoding R53 to R58).
-/

namespace Sys2Proof.Machine

/-! ### Command words -/

/-- The word of a command selects that command. -/
theorem decodeCommand_of_encodeCommand {i : Instr} {w : CmdWord} (h : encodeCommand i = some w) :
    decodeCommand w = .ok i := by
  cases i with
  | pack | unpack | srst => cases h; rfl
  | quant p => cases h; exact decodeCommand_quant p
  | qpad p => cases h; exact decodeCommand_qpad p
  | deq p => cases h; exact decodeCommand_deq p
  | rd | wr => cases h

/-- A word selects a command just when it is that command's word: no two words select the same one. -/
theorem decodeCommand_eq_ok {w : CmdWord} {i : Instr} : decodeCommand w = .ok i ↔ encodeCommand i = some w := by
  refine ⟨fun h => ?_, decodeCommand_of_encodeCommand⟩
  rcases decodeCommand_cases w with ⟨e, hw⟩ | ⟨e, hw⟩ | ⟨e, hw⟩ | ⟨e, hw⟩ | ⟨e, hw⟩ | ⟨e, hw⟩ | ⟨e, -⟩
  on_goal 7 => cases h.symm.trans e
  all_goals
    cases h.symm.trans e
    exact congrArg some hw.symm

theorem decodeCommand_ok_or_reserved (w : CmdWord) : (∃ i, decodeCommand w = .ok i) ∨ ReservedWord w := by
  rcases decodeCommand_cases w with ⟨e, -⟩ | ⟨e, -⟩ | ⟨e, -⟩ | ⟨e, -⟩ | ⟨e, -⟩ | ⟨e, -⟩ | ⟨-, hw⟩
  on_goal 7 => exact .inr hw
  all_goals exact .inl ⟨_, e⟩

theorem decodeCommand_eq_error {w : CmdWord} : decodeCommand w = .error (.reservedWord w) ↔ ReservedWord w := by
  refine ⟨fun h => ?_, decodeCommand_reserved w⟩
  rcases decodeCommand_ok_or_reserved w with ⟨i, hi⟩ | hw
  · cases h.symm.trans hi
  · exact hw

/-- The mask 0xC0 keeps the two bits above the position. -/
theorem append_and_mask (op : BitVec 2) (p : Pos) : (op ++ p) &&& 0xC0#8 = op ++ 0#6 := by
  rw [show 0xC0#8 = BitVec.allOnes 2 ++ 0#6 from rfl, BitVec.and_append, BitVec.and_allOnes, BitVec.and_zero]

/-- A word is two bits above a position just when it has those bits under the mask 0xC0 and the position below. -/
theorem append_eq_iff_mask (op : BitVec 2) (p : Pos) (w : CmdWord) :
    op ++ p = w ↔ w &&& 0xC0#8 = op ++ 0#6 ∧ p = w.extractLsb' 0 6 := by
  constructor
  · rintro rfl
    exact ⟨append_and_mask op p, BitVec.extractLsb'_append_eq_right.symm⟩
  · rintro ⟨hmask, rfl⟩
    have hw : w.extractLsb' 6 2 ++ w.extractLsb' 0 6 = w := BitVec.extractLsb'_append_extractLsb'
    rw [← hw, append_and_mask, BitVec.append_left_inj] at hmask
    rw [← hmask, hw]

/-- A word whose row has the mask 0xFF selects it by being the row's match. -/
theorem decodeCommand_eq_ok_iff_mask {i : Instr} {c : CmdWord} (hc : encodeCommand i = some c) (w : CmdWord) :
    decodeCommand w = .ok i ↔ w &&& 0xFF#8 = c := by
  rw [decodeCommand_eq_ok, hc, Option.some.injEq, eq_comm, show 0xFF#8 = BitVec.allOnes 8 from rfl, BitVec.and_allOnes]

/-- A word selects a command at a position by the row's match under the mask 0xC0 and the position below. -/
theorem decodeCommand_eq_ok_iff_mask_pos {i : Instr} {op : BitVec 2} {p : Pos} (hc : encodeCommand i = some (op ++ p))
    (w : CmdWord) : decodeCommand w = .ok i ↔ w &&& 0xC0#8 = op ++ 0#6 ∧ p = w.extractLsb' 0 6 := by
  rw [decodeCommand_eq_ok, hc, Option.some.injEq, append_eq_iff_mask]

/-- The reserved words are those that select no row of the opcode map. -/
theorem reservedWord_iff_no_row : ∀ w : CmdWord,
    ReservedWord w ↔ ¬(w &&& 0xFF#8 = 0x01#8 ∨ w &&& 0xFF#8 = 0x02#8 ∨ w &&& 0xFF#8 = 0x3F#8 ∨
      w &&& 0xC0#8 = 0x40#8 ∨ w &&& 0xC0#8 = 0x80#8 ∨ w &&& 0xC0#8 = 0xC0#8) := by decide

/-! ### The access that issues an instruction -/

/-- A command is issued by the WR to CMD of its word (30_encoding R58). -/
theorem encode_of_encodeCommand {i : Instr} {w : CmdWord} (h : encodeCommand i = some w) :
    encode i = commandAccess w := by
  cases i with
  | pack | unpack | srst | quant | qpad | deq => cases h; rfl
  | rd | wr => cases h

theorem decode_encode_command {i : Instr} {w : CmdWord} (h : encodeCommand i = some w) :
    decode (encode i) = .ok i := by
  rw [encode_of_encodeCommand h, decode_commandAccess (decodeCommand_of_encodeCommand h)]

theorem decode_commandAccess_reserved {w : CmdWord} (h : ReservedWord w) :
    decode (commandAccess w) = .ok (.wr 0x00#7 (w.setWidth 32)) := by
  simp [commandAccess, decode, fitsReg_cmd_setWidth, decodeCommand_reserved w h]

/-- A WR to CMD decodes to the command its word names, or to itself (log entry 8). -/
theorem decode_commandAccess_canonical (w : CmdWord) :
    decode (commandAccess w) = .ok (canonicalInstr (.wr 0x00#7 (w.setWidth 32))) := by
  rcases decodeCommand_ok_or_reserved w with ⟨i, h⟩ | h
  · rw [decode_commandAccess h, canonicalInstr_commandWrite h]
  · rw [decode_commandAccess_reserved h, canonicalInstr_reservedWrite h]

theorem decode_wrAccess_tooWide {r : Reg} {v : PortWord} (h : fitsReg r v ≠ true) :
    decode (wrAccess r v) = .error (.valueTooWide (numOfReg r) v) := by
  simp [wrAccess, decode, regOfNum_numOfReg, h]

/-- A well-formed write is a WR to CMD of a command word or a data write. -/
theorem wellFormed_wr_cases {rn : RegNum} {v : PortWord} (h : WellFormed (.wr rn v)) :
    (∃ w : CmdWord, rn = 0x00#7 ∧ v = w.setWidth 32) ∨
    ∃ r, r ≠ .cmd ∧ rn = numOfReg r ∧ fitsReg r v = true := by
  obtain ⟨r, rfl, hf⟩ := wellFormed_wr.1 h
  by_cases hr : r = .cmd
  · subst hr
    exact .inl ⟨cmdWordOf v, rfl, (setWidth_cmdWordOf hf).symm⟩
  · exact .inr ⟨r, hr, rfl, hf⟩

theorem canonicalInstr_dataWrite {r : Reg} (v : PortWord) (hr : r ≠ .cmd) :
    canonicalInstr (.wr (numOfReg r) v) = .wr (numOfReg r) v :=
  canonicalInstr_wr_of_ne_zero v fun e => hr (numOfReg_injective e)

/-- A well-formed instruction has its own name already, or is the WR to CMD of the word of the command it is named. -/
theorem canonicalInstr_cases {i : Instr} (h : WellFormed i) :
    canonicalInstr i = i ∨
    ∃ w : CmdWord, i = .wr 0x00#7 (w.setWidth 32) ∧ decodeCommand w = .ok (canonicalInstr i) := by
  cases i with
  | wr rn v =>
    rcases wellFormed_wr_cases h with ⟨w, rfl, rfl⟩ | ⟨r, hr, rfl, -⟩
    · rcases decodeCommand_ok_or_reserved w with ⟨c, hc⟩ | hw
      · exact .inr ⟨w, rfl, by rw [canonicalInstr_commandWrite hc, hc]⟩
      · exact .inl (canonicalInstr_reservedWrite hw)
    · exact .inl (canonicalInstr_dataWrite v hr)
  | _ => exact .inl rfl

/-- An instruction and its canonical name are issued by one access. -/
theorem encode_canonicalInstr {i : Instr} (h : WellFormed i) : encode (canonicalInstr i) = encode i := by
  rcases canonicalInstr_cases h with e | ⟨w, rfl, hw⟩
  · rw [e]
  · exact encode_of_encodeCommand (decodeCommand_eq_ok.1 hw)

theorem decode_encode {i : Instr} (h : WellFormed i) : decode (encode i) = .ok (canonicalInstr i) := by
  cases i with
  | pack | unpack | srst | quant | qpad | deq => exact decode_encode_command rfl
  | rd rn =>
    obtain ⟨r, rfl⟩ := wellFormed_rd.1 h
    exact decode_rdAccess r
  | wr rn v =>
    rcases wellFormed_wr_cases h with ⟨w, rfl, rfl⟩ | ⟨r, hr, rfl, hf⟩
    · exact decode_commandAccess_canonical w
    · rw [canonicalInstr_dataWrite v hr]
      exact decode_wrAccess hr hf

/-- What decodes is the access of a well-formed RD or WR. -/
theorem exists_encode_of_decode {a : Access} {i : Instr} (h : decode a = .ok i) :
    ∃ j, WellFormed j ∧ encode j = a := by
  cases a with
  | read rn =>
    refine ⟨.rd rn, ?_, rfl⟩
    cases hr : regOfNum rn with
    | none => cases (decode_read_of_regOfNum_none hr).symm.trans h
    | some r => exact wellFormed_rd.2 ⟨r, regOfNum_eq_some.1 hr⟩
  | write rn v =>
    refine ⟨.wr rn v, ?_, rfl⟩
    cases hr : regOfNum rn with
    | none => cases (decode_write_of_regOfNum_none hr v).symm.trans h
    | some r =>
      obtain rfl := regOfNum_eq_some.1 hr
      by_cases hf : fitsReg r v = true
      · exact wellFormed_wr.2 ⟨r, rfl, hf⟩
      · cases (decode_wrAccess_tooWide hf).symm.trans h

theorem encode_of_decode {a : Access} {i : Instr} (h : decode a = .ok i) : encode i = a := by
  obtain ⟨j, hj, rfl⟩ := exists_encode_of_decode h
  cases (decode_encode hj).symm.trans h
  exact encode_canonicalInstr hj

/-! ### Positions and descriptors -/

theorem toNat_posOf (row col : BitVec 3) : (posOf row col).toNat = 8 * row.toNat + col.toNat := by
  rw [posOf, BitVec.toNat_append, ← Nat.shiftLeft_add_eq_or_of_lt col.isLt, Nat.shiftLeft_eq]
  omega

theorem toNat_posRow (p : Pos) : (posRow p).toNat = p.toNat / 8 := by
  have hp := p.isLt
  rw [posRow, BitVec.extractLsb'_toNat, Nat.shiftRight_eq_div_pow]
  omega

theorem toNat_posCol (p : Pos) : (posCol p).toNat = p.toNat % 8 := by
  rw [posCol, BitVec.extractLsb'_toNat, Nat.shiftRight_zero]

theorem accessOf_of_clear {d : BitVec 8} (h : d.getLsbD 7 = false) (v : PortWord) :
    accessOf d v = .read (d.extractLsb' 0 7) := by rw [accessOf, h]; rfl

theorem accessOf_of_set {d : BitVec 8} (h : d.getLsbD 7 = true) (v : PortWord) :
    accessOf d v = .write (d.extractLsb' 0 7) v := by rw [accessOf, h]; rfl

/-- Bit 7 of a descriptor is what its mask 0x80 keeps (30_encoding R53). -/
theorem getLsbD_seven_of_mask : ∀ d : BitVec 8,
    (d &&& 0x80#8 = 0x00#8 → d.getLsbD 7 = false) ∧ (d &&& 0x80#8 = 0x80#8 → d.getLsbD 7 = true) := by decide

/-- The direction is the bit above the register number. -/
theorem getLsbD_seven_append (d : BitVec 1) (rn : RegNum) : (d ++ rn).getLsbD 7 = d.getLsbD 0 :=
  BitVec.getLsbD_append

theorem toNat_direction_append (d : BitVec 1) (rn : RegNum) : (d ++ rn).toNat = 0x80 * d.toNat + rn.toNat := by
  rw [BitVec.toNat_append, ← Nat.shiftLeft_add_eq_or_of_lt rn.isLt, Nat.shiftLeft_eq, Nat.mul_comm]

theorem accessOf_descriptorOf_read (rn : RegNum) (v : PortWord) : accessOf (descriptorOf (.read rn)) v = .read rn := by
  rw [descriptorOf, accessOf_of_clear (getLsbD_seven_append 0b0#1 rn), BitVec.extractLsb'_append_eq_right]

theorem accessOf_descriptorOf_write (rn : RegNum) (u v : PortWord) :
    accessOf (descriptorOf (.write rn u)) v = .write rn v := by
  rw [descriptorOf, accessOf_of_set (getLsbD_seven_append 0b1#1 rn), BitVec.extractLsb'_append_eq_right]

end Sys2Proof.Machine

open Sys2Proof Sys2Proof.Machine

/-- Settles O4: each access decodes to the canonical name, which differs from the instruction only for a WR to CMD. -/
theorem decodeOfEncodeReturnsInstr : Obligations.DecodeOfEncodeReturnsInstr := by
  refine ⟨fun i h => decode_encode h, fun i h => ?_, fun w hw => canonicalInstr_reservedWrite hw,
    fun i w h => canonicalInstr_commandWrite (decodeCommand_of_encodeCommand h)⟩
  cases i with
  | wr rn v => exact canonicalInstr_wr_of_ne_zero v fun e => h v (e ▸ rfl)
  | _ => rfl

/-- Settles O5: what decodes is an encoded instruction under its canonical name, which has the same encoding. -/
theorem encodeOfDecodeReturnsAccess : Obligations.EncodeOfDecodeReturnsAccess :=
  fun _ _ h => ⟨wellFormed_of_decode h, encode_of_decode h⟩

/-- Settles O20: only a WR to CMD of a defined word is renamed, to the command that word performs. -/
theorem canonicalInstrHasSameEffect : Obligations.CanonicalInstrHasSameEffect := by
  intro i s h
  rcases canonicalInstr_cases h with e | ⟨w, rfl, hw⟩
  · rw [e]
  · rw [exec_commandWrite, execCmdWord_defined hw]

/-- Settles O43: the words counted, and IllegalCommand behind the gate on FCAUSE. -/
theorem reservedWordRaisesIllegalCommand : Obligations.ReservedWordRaisesIllegalCommand := by
  refine ⟨by decide, fun s w hw => ?_⟩
  rw [exec_commandWrite, execCmdWord_reserved hw]
  exact ⟨fun h => State.onBlock_whenReady_ready _ h, fun h => State.onBlock_whenReady_faulted _ h⟩

/-- Settles O1: each row's commands are those whose word has the row's code under its mask. -/
theorem commandWordSelectsItsRow : Obligations.CommandWordSelectsItsRow := by
  refine ⟨fun d v => ⟨fun h => accessOf_of_clear ((getLsbD_seven_of_mask d).1 h) v,
    fun h => accessOf_of_set ((getLsbD_seven_of_mask d).2 h) v⟩, fun w => ?_⟩
  exact ⟨decodeCommand_eq_ok_iff_mask rfl w, decodeCommand_eq_ok_iff_mask rfl w, decodeCommand_eq_ok_iff_mask rfl w,
    fun p => decodeCommand_eq_ok_iff_mask_pos (op := 0b01#2) rfl w,
    fun p => decodeCommand_eq_ok_iff_mask_pos (op := 0b10#2) rfl w,
    fun p => decodeCommand_eq_ok_iff_mask_pos (op := 0b11#2) rfl w,
    decodeCommand_eq_error, reservedWord_iff_no_row w⟩

/-- Settles O2: the bits of a position are those of its row above those of its column. -/
theorem positionIsRowTimesEightPlusColumn : Obligations.PositionIsRowTimesEightPlusColumn := by
  refine ⟨toNat_posOf, fun p => ⟨toNat_posRow p, toNat_posCol p, BitVec.eq_of_toNat_eq ?_⟩⟩
  rw [toNat_posOf, toNat_posRow, toNat_posCol, Nat.div_add_mod]

/-- Settles O3, word by word. -/
theorem sampleWordsDecode : Obligations.SampleWordsDecode :=
  ⟨rfl, rfl, rfl, decodeCommand_quant 10#6, decodeCommand_qpad 19#6, decodeCommand_deq 56#6, rfl, rfl, rfl, rfl⟩

/-- Settles O6, the descriptor's bits taken apart by `accessOf` and read as a number. -/
theorem descriptorSpellsAccess : Obligations.DescriptorSpellsAccess := by
  refine fun rn v => ⟨accessOf_descriptorOf_read rn v, accessOf_descriptorOf_write rn v v, ?_,
    toNat_direction_append 0b1#1 rn⟩
  exact (toNat_direction_append 0b0#1 rn).trans (Nat.zero_add _)

end

section
/-!
SUPPORT. What each write does on a ready block and on a faulted one: data registers, read-only registers, CMD
(40_register_access R61 to R66, R69).
-/

namespace Sys2Proof.Machine

/-! ### Values of a register's width -/

/-- A value no wider than the register fits it on the data lane. -/
theorem fitsReg_setWidth {r : Reg} {w : Nat} (v : BitVec w) (h : w ≤ regWidth r) :
    fitsReg r (v.setWidth 32) = true :=
  decide_eq_true <| calc
    (v.setWidth 32).toNat ≤ v.toNat := v.toNat_setWidth 32 ▸ Nat.mod_le _ _
    _ < 2 ^ w := v.isLt
    _ ≤ 2 ^ regWidth r := Nat.pow_le_pow_right (by decide) h

/-- Every word of the data lane fits a register as wide as the lane. -/
theorem fitsReg_word {r : Reg} (v : PortWord) (h : 32 ≤ regWidth r) : fitsReg r v = true :=
  BitVec.setWidth_eq v ▸ fitsReg_setWidth v h

/-! ### Data writes -/

section
variable {r : Reg} {v : PortWord} {s : State}

theorem exec_wr_data_ready (hr : r ≠ .cmd) (hf : fitsReg r v = true) (h : s.block.fcause = 0#2) :
    exec (.wr (numOfReg r) v) s = .next { s with block := s.block.writeReg r v } := by
  rw [exec_wr_data hr hf, State.onBlock_whenReady_ready _ h]

theorem exec_wr_data_faulted (hr : r ≠ .cmd) (hf : fitsReg r v = true) (h : s.block.fcause ≠ 0#2) :
    exec (.wr (numOfReg r) v) s = .next s := by
  rw [exec_wr_data hr hf, State.onBlock_whenReady_faulted _ h]

/-- A write whose effect leaves the block as it is changes nothing on either side of the gate. -/
theorem exec_wr_data_of_writeReg_eq (hr : r ≠ .cmd) (hf : fitsReg r v = true)
    (hsame : s.block.writeReg r v = s.block) : exec (.wr (numOfReg r) v) s = .next s := by
  by_cases h : s.block.fcause = 0#2
  · rw [exec_wr_data_ready hr hf h, hsame]
  · exact exec_wr_data_faulted hr hf h

end

/-! ### PLN and IDX take from the data lane the value put on it -/

theorem Block.writeReg_pln (b : Block) (j : BitVec 4) (v : PlaneByte) :
    b.writeReg (.pln j) (v.setWidth 32) = b.supplyPln j v := by
  simp [writeReg]

theorem Block.writeReg_idx (b : Block) (p : Pos) (v : Index) :
    b.writeReg (.idx p) (v.setWidth 32) = b.setIdx p v := by
  simp [writeReg]

/-- PVALID[j] is set and PVALID[k] for every other byte k is kept (40_register_access R64). -/
theorem getLsbD_pvalidSupply_toNat (m : BitVec 16) (j k : BitVec 4) :
    (pvalidSupply m j).getLsbD k.toNat = if k = j then true else m.getLsbD k.toNat := by
  by_cases h : k = j
  · simp [getLsbD_pvalidSupply, h]
  · simp [getLsbD_pvalidSupply, h, BitVec.toNat_inj]

/-! ### Writes to CMD -/

/-- A word with the bits of a command's row above the position selects that command at the position. -/
theorem decodeCommand_of_rowBits {w : CmdWord} {op : BitVec 2} {i : Instr} (hop : w.extractLsb' 6 2 = op)
    (hi : encodeCommand i = some (op ++ w.extractLsb' 0 6)) : decodeCommand w = .ok i := by
  have hw : w.extractLsb' 6 2 ++ w.extractLsb' 0 6 = w := BitVec.extractLsb'_append_extractLsb'
  rw [decodeCommand_eq_ok, hi, ← hop, hw]

theorem exec_commandWrite_defined {w : CmdWord} {i : Instr} (h : decodeCommand w = .ok i) (s : State) :
    exec (.wr 0x00#7 (w.setWidth 32)) s = exec i s := by
  rw [exec_commandWrite, execCmdWord_defined h]

/-- A faulted block ignores every word but that of SRST (40_register_access R65). -/
theorem exec_commandWrite_faulted {w : CmdWord} {s : State} (h : s.block.fcause ≠ 0#2) (hw : w ≠ 0x3F#8) :
    exec (.wr 0x00#7 (w.setWidth 32)) s = .next s := by
  rcases decodeCommand_cases w with ⟨e, -⟩ | ⟨e, -⟩ | ⟨-, hsrst⟩ | ⟨e, -⟩ | ⟨e, -⟩ | ⟨e, -⟩ | ⟨-, hres⟩
  on_goal 3 => exact absurd hsrst hw
  on_goal 6 => exact (reservedWordRaisesIllegalCommand.2 s w hres).2 h
  all_goals exact (exec_commandWrite_defined e s).trans (State.onBlock_whenReady_faulted _ h)

end Sys2Proof.Machine

open Sys2Proof Sys2Proof.Machine

/-- Settles O16: the new PVALID is the old one with bit j supplied. -/
theorem writePlaneByteWhenReady : Obligations.WritePlaneByteWhenReady := by
  refine fun s j v h => ⟨pvalidSupply s.block.pvalid j, getLsbD_pvalidSupply_toNat s.block.pvalid j, ?_⟩
  have hwrite := exec_wr_data_ready (r := .pln j) nofun (fitsReg_setWidth v (Nat.le_refl 8)) h
  rwa [Block.writeReg_pln] at hwrite

/-- Settles O19, row by row of the opcode map. -/
theorem commandWritePerformsCommand : Obligations.CommandWritePerformsCommand := by
  refine fun s w => ⟨exec_commandWrite_faulted, fun hw => exec_commandWrite_defined ?_ s, fun hready =>
    ⟨fun hw => exec_commandWrite_defined ?_ s, fun hw => exec_commandWrite_defined ?_ s,
      fun hop => exec_commandWrite_defined ?_ s, fun hop => exec_commandWrite_defined ?_ s,
      fun hop => exec_commandWrite_defined ?_ s, fun hw => (reservedWordRaisesIllegalCommand.2 s w hw).1 hready⟩⟩
  iterate 3 exact hw ▸ rfl
  iterate 3 exact decodeCommand_of_rowBits hop rfl

/-- Settles O13: the write reaches PAL[j], behind an open gate. -/
theorem writePaletteEntryWhenReady : Obligations.WritePaletteEntryWhenReady :=
  fun _ j v h => exec_wr_data_ready (r := .pal j) nofun (fitsReg_word v (Nat.le_refl 32)) h

/-- Settles O14: the write reaches COLOR, behind an open gate. -/
theorem writeColorWhenReady : Obligations.WriteColorWhenReady :=
  fun _ v h => exec_wr_data_ready (r := .color) nofun (fitsReg_word v (Nat.le_refl 32)) h

/-- Settles O15: the two bits pass through the data lane into IDX[p]. -/
theorem writeCellWhenReady : Obligations.WriteCellWhenReady := by
  intro s p v h
  have hwrite := exec_wr_data_ready (r := .idx p) nofun (fitsReg_setWidth v (Nat.le_refl 2)) h
  rwa [Block.writeReg_idx] at hwrite

/-- Settles O17: a write to any of the four has no effect on the block. -/
theorem readOnlyRegistersIgnoreWrites : Obligations.ReadOnlyRegistersIgnoreWrites :=
  fun _ =>
    ⟨fun v => exec_wr_data_of_writeReg_eq (r := .fcause) nofun (fitsReg_setWidth v (Nat.le_refl 2)) rfl,
      fun v => exec_wr_data_of_writeReg_eq (r := .fval) nofun (fitsReg_word v (Nat.le_refl 32)) rfl,
      fun v => exec_wr_data_of_writeReg_eq (r := .fpos) nofun (fitsReg_setWidth v (Nat.le_refl 6)) rfl,
      fun v => exec_wr_data_of_writeReg_eq (r := .pvalid) nofun (fitsReg_setWidth v (Nat.le_refl 16)) rfl⟩

/-- Settles O18: each data write is gated on FCAUSE. -/
theorem faultedBlockIgnoresDataWrites : Obligations.FaultedBlockIgnoresDataWrites :=
  fun _ h =>
    ⟨fun v => exec_wr_data_faulted (r := .color) nofun (fitsReg_word v (Nat.le_refl 32)) h,
      fun j v => exec_wr_data_faulted (r := .pal j) nofun (fitsReg_word v (Nat.le_refl 32)) h,
      fun j v => exec_wr_data_faulted (r := .pln j) nofun (fitsReg_setWidth v (Nat.le_refl 8)) h,
      fun p v => exec_wr_data_faulted (r := .idx p) nofun (fitsReg_setWidth v (Nat.le_refl 2)) h⟩

end

section
/-!
SUPPORT. The quantizer family on a ready block: the lowest matching position, and QUANT, QPAD and DEQ as plain updates
(41_quantizer R70 to R75).
-/

namespace Sys2Proof.Machine

/-! ### The lowest matching position -/

theorem lowestMatch_or_notInPalette (b : Block) (c : Color) : (∃ j, LowestMatch b c j) ∨ NotInPalette b c := by
  rcases lutFind_cases b c with ⟨j, -, hj⟩ | ⟨-, hn⟩
  · exact .inl ⟨j, hj⟩
  · exact .inr hn

theorem exists_lowestMatch_of_palAt {b : Block} {c : Color} (h : ∃ j, b.palAt j = c) : ∃ i, LowestMatch b c i :=
  (lowestMatch_or_notInPalette b c).resolve_right fun hn => h.elim hn

/-- Of two lowest matches neither is below the other. -/
theorem lowestMatch_unique {b : Block} {c : Color} {i j : Index} (hi : LowestMatch b c i) (hj : LowestMatch b c j) :
    i = j :=
  BitVec.le_antisymm (BitVec.not_lt.1 fun h => hi.2 j h hj.1) (BitVec.not_lt.1 fun h => hj.2 i h hi.1)

/-! ### QUANT, with its outcome known -/

theorem quantCell_of_lowestMatch {b : Block} {j : Index} (p : Pos) (h : LowestMatch b b.color j) :
    quantCell p b = b.setIdx p j := by
  rcases quantCell_cases p b with ⟨i, hi, e⟩ | ⟨hn, -⟩
  · rw [e, lowestMatch_unique hi h]
  · exact absurd h.1 (hn j)

theorem quantCell_of_notInPalette {b : Block} (p : Pos) (h : NotInPalette b b.color) :
    quantCell p b = b.raiseFault 1#2 b.color p := by
  rcases quantCell_cases p b with ⟨j, hj, -⟩ | ⟨-, e⟩
  · exact absurd hj.1 (h j)
  · exact e

/-! ### The three commands on a ready block -/

section
variable {s : State} (h : s.block.fcause = 0#2) (p : Pos)
include h

theorem exec_quant_ready : exec (.quant p) s = .next { s with block := quantCell p s.block } :=
  State.onBlock_whenReady_ready _ h

theorem exec_qpad_ready : exec (.qpad p) s = .next { s with block := padCell p s.block } :=
  State.onBlock_whenReady_ready _ h

theorem exec_deq_ready : exec (.deq p) s = .next { s with block := lookupCell p s.block } :=
  State.onBlock_whenReady_ready _ h

/-- DEQ of a cell just written loads the palette entry of the index written. -/
theorem exec_deq_setIdx (i : Index) :
    exec (.deq p) { s with block := s.block.setIdx p i } =
      .next { s with block := (s.block.setIdx p i).setColor (s.block.palAt i) } := by
  rw [exec_deq_ready (s := { s with block := s.block.setIdx p i }) h p, lookupCell, Block.idxAt_setIdx, if_pos rfl]
  rfl

end

/-! ### Palettes and cells, entry by entry -/

theorem Block.exists_palAt_ne_of_pal_ne {b c : Block} (h : b.pal ≠ c.pal) : ∃ i, b.palAt i ≠ c.palAt i := by
  by_contra hall
  push Not at hall
  exact h (Vector.ext fun i hi => hall (BitVec.ofNatLT i hi))

theorem Block.idx_set_idxAt_self (b : Block) (p : Pos) : b.idx.set p.toNat (b.idxAt p) p.isLt = b.idx :=
  Vector.set_getElem_self p.isLt

end Sys2Proof.Machine

open Sys2Proof Sys2Proof.Machine

/-- Settles O25: the two outcomes of the palette lookup. -/
theorem quantWritesLowestMatchOrFaults : Obligations.QuantWritesLowestMatchOrFaults := by
  refine fun s p h => ⟨fun j hj => ?_, fun hn => ?_, lowestMatch_or_notInPalette _ _⟩
  · rw [exec_quant_ready h, quantCell_of_lowestMatch p hj]; rfl
  · rw [exec_quant_ready h, quantCell_of_notInPalette p hn]; rfl

/-- Settles O28: the colour DEQ loads is in PAL, so QUANT finds its lowest position, the old one when it is the only. -/
theorem deqThenQuantReturnsIndex : Obligations.DeqThenQuantReturnsIndex := by
  intro s p h
  obtain ⟨j, hj⟩ := exists_lowestMatch_of_palAt (b := s.block) ⟨s.block.idxAt p, rfl⟩
  refine ⟨{ s with block := lookupCell p s.block }, { s with block := (lookupCell p s.block).setIdx p j }, j,
    exec_deq_ready h p, ?_, h, hj, rfl, fun hinj => ?_⟩
  · rw [exec_quant_ready (s := { s with block := lookupCell p s.block }) h p, quantCell_of_lowestMatch p hj]
  · rw [hinj j _ hj.1]
    exact s.block.idx_set_idxAt_self p

/-- Settles O29: a QUANT that does not fault wrote a position of COLOR, which DEQ loads again. -/
theorem quantThenDeqKeepsColor : Obligations.QuantThenDeqKeepsColor := by
  intro s t p h hq ht
  rw [exec_quant_ready h] at hq
  cases hq
  rcases quantCell_cases p s.block with ⟨j, hj, e⟩ | ⟨-, e⟩
  · refine ⟨_, by rw [e]; exact exec_deq_setIdx h p j, ?_, hj.1⟩
    rw [e, hj.1]
    rfl
  · rw [e] at ht
    cases ht

/-- Settles O30: an index at which the two palettes differ, written to the cell and looked up. -/
theorem paletteOrderChangesColors : Obligations.PaletteOrderChangesColors := by
  intro s t p hs ht _ hne
  obtain ⟨i, hi⟩ := Block.exists_palAt_ne_of_pal_ne hne
  exact ⟨i, _, _, exec_deq_setIdx hs p i, exec_deq_setIdx ht p i, hi⟩

/-- Settles O26: QPAD's effect, behind an open gate. -/
theorem qpadWritesZeroCell : Obligations.QpadWritesZeroCell :=
  fun _ p h => exec_qpad_ready h p

/-- Settles O27: DEQ's effect, behind an open gate. -/
theorem deqLoadsPaletteColor : Obligations.DeqLoadsPaletteColor := by
  rintro s p _ h rfl
  exact exec_deq_ready h p

end

section
/-!
SUPPORT. Encoding one tile: what the accesses of its cells do to the block, and the bytes read back
(48_host_procedures R109, R110 step 5).
-/

namespace Sys2Proof.Machine

/-! ### Loading cells -/

/-- The effect on a ready block of the accesses of one cell: QPAD, or WR COLOR and QUANT (48_host_procedures R110). -/
def cellEffect (p : Pos) : Option Color → Block → Block
  | none, b => padCell p b
  | some c, b => quantCell p (b.setColor c)

/-- The block after the accesses of cells at the positions given, in that order, each behind the gate. -/
def loadCells (cells : List (Pos × Option Color)) (b : Block) : Block :=
  cells.foldl (fun b x => b.whenReady (cellEffect x.1 x.2)) b

/-- The index a cell is to hold: 0 for padding, else the lowest matching position of its colour. -/
def CellIndex (b : Block) (cell : Option Color) (i : Index) : Prop :=
  (cell = none → i = 0#2) ∧ ∀ c, cell = some c → LowestMatch b c i

theorem loadCells_cons_ready (p : Pos) (cell : Option Color) (cells : List (Pos × Option Color)) {b : Block}
    (h : b.fcause = 0#2) : loadCells ((p, cell) :: cells) b = loadCells cells (cellEffect p cell b) := by
  rw [loadCells, List.foldl_cons, Block.whenReady_of_ready _ h, loadCells]

/-! ### The accesses of cells load them -/

/-- Two effects behind the gate are one, when the first leaves it as it is. -/
theorem Block.whenReady_whenReady {f g : Block → Block} {b : Block} (hf : (f b).fcause = b.fcause) :
    (b.whenReady f).whenReady g = b.whenReady fun b => g (f b) := by
  by_cases h : b.fcause = 0#2
  · rw [whenReady_of_ready _ h, whenReady_of_ready _ h, whenReady_of_ready _ (hf.trans h)]
  · rw [whenReady_of_faulted _ h, whenReady_of_faulted _ h, whenReady_of_faulted _ h]

theorem issueAll_cellAccesses (p : Pos) (cell : Option Color) (b : Block) (port es : List HostEvent)
    (rs : List ReadValue) :
    issueAll ((cellAccesses p cell).map .access ++ es) ⟨b, port, rs⟩ =
      issueAll es ⟨b.whenReady (cellEffect p cell), [], rs⟩ := by
  cases cell with
  | none => exact issueAll_qpad b port rs es p
  | some c =>
    calc issueAll ((cellAccesses p (some c)).map .access ++ es) ⟨b, port, rs⟩
      _ = issueAll (.access (encode (.quant p)) :: es) ⟨b.whenReady (·.setColor c), [], rs⟩ :=
        issueAll_wrAccess (r := .color) b port rs _ nofun (fitsReg_word c (Nat.le_refl 32))
      _ = issueAll es ⟨(b.whenReady (·.setColor c)).whenReady (quantCell p), [], rs⟩ := issueAll_quant _ _ _ _ p
      _ = issueAll es ⟨b.whenReady (cellEffect p (some c)), [], rs⟩ := by rw [Block.whenReady_whenReady rfl]; rfl

theorem issueAll_loadCells (cells : List (Pos × Option Color)) (b : Block) (port : List HostEvent) (e : HostEvent)
    (es : List HostEvent) (rs : List ReadValue) :
    issueAll ((cells.flatMap fun x => cellAccesses x.1 x.2).map .access ++ e :: es) ⟨b, port, rs⟩ =
      issueAll (e :: es) ⟨loadCells cells b, [], rs⟩ := by
  induction cells generalizing b port with
  | nil => rfl
  | cons x cells ih =>
    rw [List.flatMap_cons, List.map_append, List.append_assoc, issueAll_cellAccesses, ih]
    rfl

/-! ### What loading leaves -/

theorem cellIndex_congr {b b' : Block} (h : b'.pal = b.pal) {cell : Option Color} {i : Index} :
    CellIndex b' cell i ↔ CellIndex b cell i := by
  simp only [CellIndex, LowestMatch, Block.palAt, h]

/-- A cell that is padding or whose colour is in PAL takes its index without a fault. -/
theorem cellEffect_supported (p : Pos) {cell : Option Color} {b : Block}
    (h : ∀ c, cell = some c → ∃ j, b.palAt j = c) :
    ∃ i c, CellIndex b cell i ∧ cellEffect p cell b = (b.setColor c).setIdx p i := by
  cases cell with
  | none => exact ⟨0#2, b.color, ⟨fun _ => rfl, nofun⟩, rfl⟩
  | some c =>
    obtain ⟨i, hi⟩ := exists_lowestMatch_of_palAt (h c rfl)
    exact ⟨i, c, ⟨nofun, fun _ e => Option.some.inj e ▸ hi⟩, quantCell_of_lowestMatch p hi⟩

/-- Loading supported cells leaves the block ready and PAL as it was, each of the cells at its index and the others as
they were. -/
theorem loadCells_supported {cells : List (Pos × Option Color)} (hnodup : (cells.map Prod.fst).Nodup) {b : Block}
    (hb : b.fcause = 0#2) (h : ∀ x ∈ cells, ∀ c, x.2 = some c → ∃ j, b.palAt j = c) :
    (loadCells cells b).fcause = 0#2 ∧ (loadCells cells b).pal = b.pal ∧
    (∀ x ∈ cells, CellIndex b x.2 ((loadCells cells b).idxAt x.1)) ∧
    ∀ q, q ∉ cells.map Prod.fst → (loadCells cells b).idxAt q = b.idxAt q := by
  induction cells generalizing b with
  | nil => exact ⟨hb, rfl, nofun, fun _ _ => rfl⟩
  | cons x cells ih =>
    obtain ⟨p, cell⟩ := x
    obtain ⟨hp, hnodup⟩ := List.nodup_cons.1 hnodup
    obtain ⟨hcell, hcells⟩ := List.forall_mem_cons.1 h
    obtain ⟨i, c, hi, e⟩ := cellEffect_supported p hcell
    rw [loadCells_cons_ready p cell cells hb, e]
    obtain ⟨hready, hpal, hidx, hframe⟩ := ih hnodup (b := (b.setColor c).setIdx p i) hb hcells
    refine ⟨hready, hpal, List.forall_mem_cons.2 ⟨?_, fun x hx => (cellIndex_congr rfl).1 (hidx x hx)⟩, fun q hq => ?_⟩
    · rw [hframe p hp, Block.idxAt_setIdx, if_pos rfl]
      exact hi
    · obtain ⟨hqp, hq⟩ := not_or.1 (mt List.mem_cons.2 hq)
      rw [hframe q hq, Block.idxAt_setIdx, if_neg hqp]
      rfl

/-! ### The positions of a tile -/

theorem nodup_countTo {w n : Nat} (h : n ≤ 2 ^ w) : (countTo w n).Nodup := by
  refine List.Nodup.map_on (fun x hx y hy e => ?_) List.nodup_range
  have hx := List.mem_range.1 hx
  have hy := List.mem_range.1 hy
  have e := congrArg BitVec.toNat e
  rwa [BitVec.toNat_ofNat, BitVec.toNat_ofNat, Nat.mod_eq_of_lt (by omega), Nat.mod_eq_of_lt (by omega)] at e

theorem getElem?_countTo {w n k : Nat} (h : k < n) : (countTo w n)[k]? = some (BitVec.ofNat w k) := by
  simp [countTo, h]

/-- The cells of a tile, each with its position. -/
def tilePositions (cells : List (Option Color)) : List (Pos × Option Color) := (countTo 6 64).zip cells

theorem tileAccesses_eq (cells : List (Option Color)) :
    tileAccesses cells = (tilePositions cells).flatMap (fun x => cellAccesses x.1 x.2) ++ [encode .pack] := by
  rw [tileAccesses, tilePositions, List.flatMap_def, List.zip, List.map_zipWith]

theorem nodup_tilePositions {cells : List (Option Color)} (h : cells.length = 64) :
    ((tilePositions cells).map Prod.fst).Nodup := by
  rw [tilePositions, List.map_fst_zip (by simp [countTo, h])]
  exact nodup_countTo (Nat.le_refl 64)

theorem mem_tilePositions {cells : List (Option Color)} {k : Nat} {cell : Option Color} (hk : k < 64)
    (h : cells[k]? = some cell) : (BitVec.ofNat 6 k, cell) ∈ tilePositions cells :=
  List.mem_of_getElem? (i := k) (List.getElem?_zip_eq_some.2 ⟨getElem?_countTo hk, h⟩)

/-! ### The bytes of a packed tile -/

/-- Column c of byte 2k is bit 0 of cell 8k+c (42_packer R80, R81). -/
theorem getLsbD_packTile_low (t : Tile) (k c : Fin 8) :
    (packTile t)[2 * k.val].getLsbD (7 - c.val) = t[8 * k.val + c.val].getLsbD 0 := by
  rw [packTile_low, getLsbD_planeOf, tileRow, Fin.getElem_fin, Vector.getElem_ofFn]

/-- Column c of byte 2k+1 is bit 1 of cell 8k+c (42_packer R80, R81). -/
theorem getLsbD_packTile_high (t : Tile) (k c : Fin 8) :
    (packTile t)[2 * k.val + 1].getLsbD (7 - c.val) = t[8 * k.val + c.val].getLsbD 1 := by
  rw [packTile_high, getLsbD_planeOf, tileRow, Fin.getElem_fin, Vector.getElem_ofFn]

theorem map_plnAt_countTo (b : Block) : (countTo 4 16).map b.plnAt = b.pln.toList := by
  refine List.ext_getElem (by simp [countTo]) fun j hj _ => ?_
  have hj : j < 16 := by simpa [countTo] using hj
  simp [countTo, Block.plnAt, Nat.mod_eq_of_lt hj]

/-! ### The calls of encodeTile -/

/-- The block after the accesses of a tile: its cells loaded, then packed behind the gate. -/
def loadTile (cells : List (Option Color)) (b : Block) : Block :=
  (loadCells (tilePositions cells) b).whenReady packBlock

theorem hostCall_tileAccesses (cells : List (Option Color)) (s : State) :
    hostCall (tileAccesses cells) s = .ok (⟨loadTile cells s.block, [], []⟩, []) := by
  refine hostCall_of_next s.block s.port ?_ s.returned
  rw [tileAccesses_eq, List.map_append]
  exact (issueAll_loadCells _ _ _ _ _ _).trans (issueAll_pack _ _ _ _)

/-- Reading PLN gives the sixteen bytes, PLN[0] first, and leaves the block as it is. -/
theorem hostCall_rdPln (b : Block) (rs : List ReadValue) :
    ∃ rs' vs, hostCall rdPln ⟨b, [], rs⟩ = .ok (⟨b, [], rs'⟩, vs) ∧ vs.map (·.setWidth 8) = b.pln.toList := by
  refine ⟨_, _, hostCall_of_next (rs' := [] ++ ((countTo 4 16).map .pln).map b.readValue) b [] ?_ rs, ?_⟩
  · have h := issueAll_reads b [] [] ((countTo 4 16).map .pln)
    rwa [List.map_map, List.append_nil] at h
  · rw [← map_plnAt_countTo]
    simp [Block.readValue, Block.readReg]

/-- A tile whose accesses leave the block ready encodes to its PLN bytes. -/
theorem encodeTile_of_ready (o : TileOrigin) {cells : List (Option Color)} {s : State}
    (h : (loadTile cells s.block).fcause = 0#2) :
    ∃ rs, encodeTile o cells s = .ok (⟨loadTile cells s.block, [], rs⟩, (loadTile cells s.block).pln.toList) := by
  obtain ⟨rs, hcheck⟩ := checkFault_ready (loadTile cells s.block) [] [] o h
  obtain ⟨rs', vs, hread, hbytes⟩ := hostCall_rdPln (loadTile cells s.block) rs
  exact ⟨rs', by simp only [encodeTile, hostCall_tileAccesses, hcheck, hread, hbytes]⟩

/-- A tile of supported cells leaves the block ready, PAL as it was, and in PLN the packed tile of the cells' indices. -/
theorem loadTile_supported {cells : List (Option Color)} {b : Block} (hb : b.fcause = 0#2) (hlen : cells.length = 64)
    (h : ∀ c, some c ∈ cells → ∃ j, b.palAt j = c) :
    (loadTile cells b).fcause = 0#2 ∧ (loadTile cells b).pal = b.pal ∧
    ∃ t : Tile, (loadTile cells b).pln = packTile t ∧
      ∀ (k : Nat) (hk : k < 64) (cell : Option Color), cells[k]? = some cell → CellIndex b cell t[k] := by
  have hpixels : ∀ x ∈ tilePositions cells, ∀ c, x.2 = some c → ∃ j, b.palAt j = c :=
    fun x hx c e => h c (e ▸ (List.of_mem_zip hx).2)
  obtain ⟨hready, hpal, hidx, -⟩ := loadCells_supported (nodup_tilePositions hlen) hb hpixels
  rw [loadTile, Block.whenReady_of_ready _ hready]
  refine ⟨(packBlock_fcause _).trans hready, (packBlock_pal _).trans hpal, _, packBlock_pln _,
    fun k hk cell hcell => ?_⟩
  have key := hidx _ (mem_tilePositions hk hcell)
  simpa only [Block.idxAt, BitVec.toNat_ofNat, Nat.mod_eq_of_lt hk] using key

end Sys2Proof.Machine

open Sys2Proof Sys2Proof.Machine

/-- Settles O57: each cell takes its index, PACK splits the indices into bytes, and the host reads the bytes back. -/
theorem encodedTileHoldsCellIndices : Obligations.EncodedTileHoldsCellIndices := by
  intro o cells s hs hlen hpal
  obtain ⟨hready, hkeep, t, hpln, ht⟩ := loadTile_supported hs hlen hpal
  obtain ⟨rs, hencode⟩ := encodeTile_of_ready o hready
  refine ⟨_, _, hencode, Vector.length_toList, hready, hkeep, fun k c => ?_⟩
  have hcell : cells[8 * k.val + c.val]? = some cells[8 * k.val + c.val] := List.getElem?_eq_getElem (by omega)
  obtain ⟨hpad, hpixel⟩ := ht (8 * k.val + c.val) (by omega) _ hcell
  refine ⟨_, (packTile t)[2 * k.val], (packTile t)[2 * k.val + 1], t[8 * k.val + c.val], hcell, ?_, ?_,
    (getLsbD_packTile_low t k c).symm, (getLsbD_packTile_high t k c).symm, hpad, hpixel⟩
  · simp [hpln]
  · simp [hpln]

end

section
/-!
SUPPORT. PACK and UNPACK as inverse maps between tiles and sixteen-byte groups, and the two commands on a ready block
(42_packer, 43_unpacker).
-/

namespace Sys2Proof.Machine

/-! ### Packing and unpacking undo each other -/

/-- Each cell comes back with the two bits it put into its row's planes (42_packer R82). -/
theorem unpackTile_packTile (t : Tile) : unpackTile (packTile t) = t := by
  refine Tile.ext_cells fun k c => ?_
  rw [unpackTile_cell]
  apply Index.ext_bits
  · rw [getLsbD_unpackCell_zero, getLsbD_packTile_low]
  · rw [getLsbD_unpackCell_one, getLsbD_packTile_high]

/-- Each byte comes back with the column bits it gave to its row's cells (43_unpacker R87). -/
theorem packTile_unpackTile (q : Planar) : packTile (unpackTile q) = q := by
  refine Planar.ext_rows fun k => ⟨PlaneByte.ext_columns fun c => ?_, PlaneByte.ext_columns fun c => ?_⟩
  · rw [getLsbD_packTile_low, unpackTile_cell, getLsbD_unpackCell_zero]
  · rw [getLsbD_packTile_high, unpackTile_cell, getLsbD_unpackCell_one]

theorem packTile_eq_iff {t : Tile} {q : Planar} : packTile t = q ↔ t = unpackTile q :=
  ⟨fun h => h ▸ (unpackTile_packTile t).symm, fun h => h ▸ packTile_unpackTile q⟩

/-! ### The two commands on a ready block -/

section
variable {s : State} (h : s.block.fcause = 0#2)
include h

theorem exec_pack_ready : exec .pack s = .next { s with block := packBlock s.block } :=
  State.onBlock_whenReady_ready _ h

theorem exec_unpack_ready : exec .unpack s = .next { s with block := unpackBlock s.block } :=
  State.onBlock_whenReady_ready _ h

end

theorem unpackBlock_complete {b : Block} (h : b.pvalid = 0xFFFF#16) :
    unpackBlock b = { b with idx := unpackTile b.pln, pvalid := 0x0000#16 } := by
  rcases unpackBlock_cases b with ⟨-, e⟩ | ⟨hn, -⟩
  · exact e
  · exact absurd h hn

/-- PACK supplies all sixteen bytes, so UNPACK succeeds on its result and gives the tile back (42_packer R82). -/
theorem unpackBlock_packBlock (b : Block) :
    unpackBlock (packBlock b) = { b with pln := packTile b.idx, pvalid := 0x0000#16 } := by
  rw [unpackBlock_complete (packBlock_pvalid b), packBlock_pln, unpackTile_packTile]
  rfl

/-- PACK of a given tile leaves exactly that tile's bytes in PLN. -/
theorem exec_pack_setTile_eq_iff {s : State} (h : s.block.fcause = 0#2) (x : Tile) (q : Planar) :
    exec .pack { s with block := { s.block with idx := x } } =
        .next { s with block := { s.block with idx := x, pln := q, pvalid := 0xFFFF#16 } } ↔ packTile x = q := by
  rw [exec_pack_ready (s := { s with block := { s.block with idx := x } }) h]
  constructor
  · intro e
    injection e with e
    exact congrArg (·.block.pln) e
  · rintro rfl
    rfl

end Sys2Proof.Machine

open Sys2Proof Sys2Proof.Machine

/-- Settles O31: the bytes are the packing of IDX, read bit by bit. -/
theorem packCopiesEveryBit : Obligations.PackCopiesEveryBit :=
  fun s h => ⟨packTile s.block.idx,
    fun k c => ⟨getLsbD_packTile_low s.block.idx k c, getLsbD_packTile_high s.block.idx k c⟩, exec_pack_ready h⟩

/-- Settles O33: PACK keeps the block ready and supplies every byte, and unpacking undoes packing. -/
theorem packThenUnpackKeepsTile : Obligations.PackThenUnpackKeepsTile := by
  intro s h
  have ready : (packBlock s.block).fcause = 0#2 := (packBlock_fcause s.block).trans h
  have unpacked := exec_unpack_ready (s := { s with block := packBlock s.block }) ready
  rw [unpackBlock_packBlock] at unpacked
  exact ⟨_, exec_pack_ready h, unpacked, ready⟩

/-- Settles O35: the one tile that packs to the bytes q is the one they unpack to. -/
theorem packingIsBijective : Obligations.PackingIsBijective := by
  intro s h q
  simp only [exec_pack_setTile_eq_iff h, packTile_eq_iff]
  exact existsUnique_eq

end

section
/-!
SUPPORT. UNPACK with its outcome known, and what it makes of each cell (43_unpacker R85 to R87).
-/

namespace Sys2Proof.Machine

/-! ### The cells of an unpacked tile -/

/-- A cell is its low plane's bit plus twice its high plane's (43_unpacker R86). -/
theorem toNat_unpackCell (low high : PlaneByte) (c : Nat) :
    (unpackCell low high c).toNat = (low.getLsbD (7 - c)).toNat + 2 * (high.getLsbD (7 - c)).toNat := by
  rw [unpackCell]
  cases low.getLsbD (7 - c) <;> cases high.getLsbD (7 - c) <;> rfl

theorem toNat_unpackTile_cell (q : Planar) (k c : Fin 8) :
    (unpackTile q)[8 * k.val + c.val].toNat =
      (q[2 * k.val].getLsbD (7 - c.val)).toNat + 2 * (q[2 * k.val + 1].getLsbD (7 - c.val)).toNat := by
  rw [unpackTile_cell, toNat_unpackCell]

/-- A byte paired with itself gives each cell two equal bits. -/
theorem unpackCell_self (byte : PlaneByte) (c : Nat) : unpackCell byte byte c = 0#2 ∨ unpackCell byte byte c = 3#2 := by
  rw [unpackCell]
  cases byte.getLsbD (7 - c)
  · exact .inl rfl
  · exact .inr rfl

/-- What holds of the cell at every row and column holds of every cell of IDX. -/
theorem Block.forall_idxAt_of_cells {P : Index → Prop} {b : Block} (h : ∀ k c : Fin 8, P b.idx[8 * k.val + c.val])
    (p : Pos) : P (b.idxAt p) := by
  have hp := p.isLt
  have hcell := h ⟨p.toNat / 8, by omega⟩ ⟨p.toNat % 8, by omega⟩
  simpa only [Nat.div_add_mod, Block.idxAt] using hcell

/-! ### UNPACK, with its outcome known -/

theorem unpackBlock_fcause_of_complete {b : Block} (h : b.pvalid = 0xFFFF#16) : (unpackBlock b).fcause = b.fcause := by
  rw [unpackBlock_complete h]

theorem unpackBlock_idx_of_complete {b : Block} (h : b.pvalid = 0xFFFF#16) :
    (unpackBlock b).idx = unpackTile b.pln := by
  rw [unpackBlock_complete h]

theorem unpackBlock_missing {b : Block} (h : b.pvalid ≠ 0xFFFF#16) :
    unpackBlock b = b.raiseFault 2#2 (b.pvalid.setWidth 32) 0#6 := by
  rcases unpackBlock_cases b with ⟨hall, -⟩ | ⟨-, e⟩
  · exact absurd hall h
  · exact e

theorem exec_unpack_complete {s : State} (h : s.block.fcause = 0#2) (hall : s.block.pvalid = 0xFFFF#16) :
    exec .unpack s = .next { s with block := { s.block with idx := unpackTile s.block.pln, pvalid := 0x0000#16 } } := by
  rw [exec_unpack_ready h, unpackBlock_complete hall]

theorem exec_unpack_missing {s : State} (h : s.block.fcause = 0#2) (hmissing : s.block.pvalid ≠ 0xFFFF#16) :
    exec .unpack s = .next { s with block := s.block.raiseFault 2#2 (s.block.pvalid.setWidth 32) 0#6 } := by
  rw [exec_unpack_ready h, unpackBlock_missing hmissing]

/-- PACK of the tile some bytes unpack to leaves those bytes in PLN (43_unpacker R87). -/
theorem exec_pack_of_idx_eq {s : State} {q : Planar} (h : s.block.fcause = 0#2) (hidx : s.block.idx = unpackTile q) :
    exec .pack s = .next { s with block := { s.block with pln := q, pvalid := 0xFFFF#16 } } := by
  obtain rfl := packTile_eq_iff.2 hidx
  exact exec_pack_ready h

end Sys2Proof.Machine

open Sys2Proof Sys2Proof.Machine

/-- Settles O32: the tile is the unpacked PLN, read cell by cell. -/
theorem unpackCopiesEveryBitOrFaults : Obligations.UnpackCopiesEveryBitOrFaults :=
  fun s h => ⟨fun hall => ⟨unpackTile s.block.pln, toNat_unpackTile_cell s.block.pln, exec_unpack_complete h hall⟩,
    exec_unpack_missing h⟩

/-- Settles O34: UNPACK keeps the block ready, and packing undoes unpacking. -/
theorem unpackThenPackKeepsBytes : Obligations.UnpackThenPackKeepsBytes :=
  fun _ h hall => ⟨_, exec_unpack_complete h hall, exec_pack_of_idx_eq h rfl⟩

/-- Settles O36: with equal planes every cell's two bits are one bit of one byte. -/
theorem equalPlanesUnpackToZeroOrThree : Obligations.EqualPlanesUnpackToZeroOrThree := by
  intro s h hall hequal
  refine ⟨_, exec_unpack_complete h hall, Block.forall_idxAt_of_cells (P := fun i => i = 0#2 ∨ i = 3#2) fun k c => ?_⟩
  rw [unpackTile_cell, ← hequal k]
  exact unpackCell_self _ _

/-- Settles O37: both tiles are the unpacked PLN. -/
theorem unpackedCellsDependOnBytesOnly : Obligations.UnpackedCellsDependOnBytesOnly :=
  fun _ _ hs ht hsall htall hpln =>
    ⟨_, _, exec_unpack_complete hs hsall, exec_unpack_complete ht htall, congrArg unpackTile hpln⟩

end

section
/-!
SUPPORT. Decoding a stream: what the accesses of one sixteen-byte group do to the block, the cells read back, and the
groups of a whole stream (48_host_procedures R112 to R114).
-/

namespace Sys2Proof.Machine

/-! ### Supplying plane bytes -/

/-- A ready block after writes to PLN of the bytes given, in that order. -/
def supplyBytes (bytes : List (BitVec 4 × PlaneByte)) (b : Block) : Block :=
  bytes.foldl (fun b x => b.supplyPln x.1 x.2) b

theorem supplyBytes_cons (x : BitVec 4 × PlaneByte) (bytes : List (BitVec 4 × PlaneByte)) (b : Block) :
    supplyBytes (x :: bytes) b = supplyBytes bytes (b.supplyPln x.1 x.2) := rfl

@[simp] theorem supplyBytes_fcause (bytes : List (BitVec 4 × PlaneByte)) (b : Block) :
    (supplyBytes bytes b).fcause = b.fcause := by
  induction bytes generalizing b with
  | nil => rfl
  | cons x bytes ih => rw [supplyBytes_cons, ih, Block.supplyPln_fcause]

/-- PVALID gains the bits of the bytes supplied and loses none. -/
theorem getLsbD_supplyBytes_pvalid (bytes : List (BitVec 4 × PlaneByte)) (b : Block) (j : BitVec 4) :
    (supplyBytes bytes b).pvalid.getLsbD j.toNat = true ↔
      b.pvalid.getLsbD j.toNat = true ∨ j ∈ bytes.map Prod.fst := by
  induction bytes generalizing b with
  | nil => simp [supplyBytes]
  | cons x bytes ih =>
    rw [supplyBytes_cons, ih, Block.supplyPln, getLsbD_pvalidSupply_toNat]
    by_cases h : j = x.1 <;> simp [h]

theorem plnAt_supplyBytes_of_notMem {bytes : List (BitVec 4 × PlaneByte)} {j : BitVec 4}
    (h : j ∉ bytes.map Prod.fst) (b : Block) : (supplyBytes bytes b).plnAt j = b.plnAt j := by
  induction bytes generalizing b with
  | nil => rfl
  | cons x bytes ih =>
    obtain ⟨hx, hbytes⟩ := not_or.1 (mt List.mem_cons.2 h)
    rw [supplyBytes_cons, ih hbytes, Block.plnAt_supplyPln, if_neg hx]

/-- Of bytes supplied once each, PLN holds every one. -/
theorem plnAt_supplyBytes {bytes : List (BitVec 4 × PlaneByte)} (hnodup : (bytes.map Prod.fst).Nodup) (b : Block) :
    ∀ x ∈ bytes, (supplyBytes bytes b).plnAt x.1 = x.2 := by
  induction bytes generalizing b with
  | nil => exact nofun
  | cons x bytes ih =>
    obtain ⟨hx, hnodup⟩ := List.nodup_cons.1 hnodup
    refine List.forall_mem_cons.2 ⟨?_, ih hnodup _⟩
    rw [supplyBytes_cons, plnAt_supplyBytes_of_notMem hx, Block.plnAt_supplyPln, if_pos rfl]

/-! ### Supplying a group -/

/-- The bytes of a group, each with its number; a group of more than sixteen is cut. -/
def groupBytes (group : List PlaneByte) : List (BitVec 4 × PlaneByte) := (countTo 4 16).zip group

theorem ldPln_eq (group : List PlaneByte) :
    ldPln group = (groupBytes group).map fun x => wrAccess (.pln x.1) (x.2.setWidth 32) := by
  rw [ldPln, groupBytes, List.zip, List.map_zipWith]

theorem map_fst_groupBytes (q : Planar) : (groupBytes q.toList).map Prod.fst = countTo 4 16 :=
  List.map_fst_zip (by simp [countTo])

theorem mem_countTo_four_sixteen : ∀ j : BitVec 4, j ∈ countTo 4 16 := by decide

theorem pvalid_eq_all {m : BitVec 16} (h : ∀ j : BitVec 4, m.getLsbD j.toNat = true) : m = 0xFFFF#16 := by
  refine BitVec.eq_of_getLsbD_eq (y := BitVec.allOnes 16) fun i hi => ?_
  rw [BitVec.getLsbD_allOnes, decide_eq_true hi]
  simpa only [BitVec.toNat_ofNat, Nat.mod_eq_of_lt hi] using h (BitVec.ofNat 4 i)

/-- A whole group supplies every byte. -/
theorem supplyBytes_group_pvalid (q : Planar) (b : Block) :
    (supplyBytes (groupBytes q.toList) b).pvalid = 0xFFFF#16 :=
  pvalid_eq_all fun j => (getLsbD_supplyBytes_pvalid _ b j).2 (.inr (map_fst_groupBytes q ▸ mem_countTo_four_sixteen j))

/-- A whole group becomes PLN, whatever PLN held. -/
theorem supplyBytes_group_pln (q : Planar) (b : Block) : (supplyBytes (groupBytes q.toList) b).pln = q := by
  apply Vector.ext
  intro i hi
  have hmem : (BitVec.ofNat 4 i, q[i]) ∈ groupBytes q.toList :=
    List.mem_of_getElem? (i := i) (List.getElem?_zip_eq_some.2 ⟨getElem?_countTo hi, by simp [hi]⟩)
  have hbyte := plnAt_supplyBytes (map_fst_groupBytes q ▸ nodup_countTo (Nat.le_refl 16)) b _ hmem
  simpa only [Block.plnAt, BitVec.toNat_ofNat, Nat.mod_eq_of_lt hi] using hbyte

/-! ### The calls of decodeTile -/

theorem issueAll_supplyBytes (bytes : List (BitVec 4 × PlaneByte)) {b : Block} (hb : b.fcause = 0#2)
    (port : List HostEvent) (e : HostEvent) (es : List HostEvent) (rs : List ReadValue) :
    issueAll ((bytes.map fun x => wrAccess (.pln x.1) (x.2.setWidth 32)).map .access ++ e :: es) ⟨b, port, rs⟩ =
      issueAll (e :: es) ⟨supplyBytes bytes b, [], rs⟩ := by
  induction bytes generalizing b port with
  | nil => rfl
  | cons x bytes ih =>
    rw [List.map_cons, List.map_cons, List.cons_append,
      issueAll_wrAccess (r := .pln x.1) b port rs _ nofun (fitsReg_setWidth x.2 (Nat.le_refl 8)),
      Block.whenReady_of_ready _ hb, Block.writeReg_pln, ih (b := b.supplyPln x.1 x.2) hb]
    rfl

/-- The accesses of a group on a ready block supply its bytes and unpack them. -/
theorem hostCall_group (group : List PlaneByte) {b : Block} (hb : b.fcause = 0#2) (port : List HostEvent)
    (rs : List ReadValue) :
    hostCall (ldPln group ++ [encode .unpack]) ⟨b, port, rs⟩ =
      .ok (⟨unpackBlock (supplyBytes (groupBytes group) b), [], []⟩, []) := by
  refine hostCall_of_next b port ?_ rs
  rw [ldPln_eq, List.map_append, ← Block.whenReady_of_ready unpackBlock ((supplyBytes_fcause _ b).trans hb)]
  exact (issueAll_supplyBytes _ hb _ _ _ _).trans (issueAll_unpack _ _ _ _)

theorem map_idxAt_countTo (b : Block) : (countTo 6 64).map b.idxAt = b.idx.toList := by
  refine List.ext_getElem (by simp [countTo]) fun p hp _ => ?_
  have hp : p < 64 := by simpa [countTo] using hp
  simp [countTo, Block.idxAt, Nat.mod_eq_of_lt hp]

/-- Reading IDX gives the sixty-four cells, IDX[0] first, and leaves the block as it is. -/
theorem hostCall_rdIdx (b : Block) (rs : List ReadValue) :
    ∃ rs' vs, hostCall rdIdx ⟨b, [], rs⟩ = .ok (⟨b, [], rs'⟩, vs) ∧ vs.map (·.setWidth 2) = b.idx.toList := by
  refine ⟨_, _, hostCall_of_next (rs' := [] ++ ((countTo 6 64).map .idx).map b.readValue) b [] ?_ rs, ?_⟩
  · have h := issueAll_reads b [] [] ((countTo 6 64).map .idx)
    rwa [List.map_map, List.append_nil] at h
  · rw [← map_idxAt_countTo]
    simp [Block.readValue, Block.readReg]

/-- A group that unpacks without a fault decodes to the IDX it leaves. -/
theorem decodeTile_of_ready {group : List PlaneByte} {s : State} (h : s.block.fcause = 0#2)
    (hready : (unpackBlock (supplyBytes (groupBytes group) s.block)).fcause = 0#2) :
    ∃ rs vs,
      decodeTile rdIdx group s = .ok (⟨unpackBlock (supplyBytes (groupBytes group) s.block), [], rs⟩, vs) ∧
      vs.map (·.setWidth 2) = (unpackBlock (supplyBytes (groupBytes group) s.block)).idx.toList := by
  obtain ⟨rs, hcheck⟩ := checkFault_ready _ [] [] ⟨0, 0, 0, 0⟩ hready
  obtain ⟨rs', vs, hread, hcells⟩ := hostCall_rdIdx (unpackBlock (supplyBytes (groupBytes group) s.block)) rs
  exact ⟨rs', vs, by simp only [decodeTile, hostCall_group group h, hcheck, hread], hcells⟩

/-- A whole group decodes to its unpacked tile, whatever the ready block held, and leaves the block ready. -/
theorem decodeTile_group (q : Planar) {s : State} (h : s.block.fcause = 0#2) :
    ∃ t vs, decodeTile rdIdx q.toList s = .ok (t, vs) ∧ t.block.fcause = 0#2 ∧
      vs.map (·.setWidth 2) = (unpackTile q).toList := by
  have hpvalid := supplyBytes_group_pvalid q s.block
  have hready := (unpackBlock_fcause_of_complete hpvalid).trans ((supplyBytes_fcause _ _).trans h)
  obtain ⟨rs, vs, hdecode, hcells⟩ := decodeTile_of_ready h hready
  rw [unpackBlock_idx_of_complete hpvalid, supplyBytes_group_pln] at hcells
  exact ⟨_, vs, hdecode, hready, hcells⟩

/-! ### Whole streams -/

theorem decodeTiles_groups (qs : List Planar) {s : State} (h : s.block.fcause = 0#2) :
    ∃ tiles, decodeTiles rdIdx (qs.map Vector.toList) s = .ok tiles ∧
      tiles.map (·.map (·.setWidth 2)) = qs.map fun q => (unpackTile q).toList := by
  induction qs generalizing s with
  | nil => exact ⟨[], rfl, rfl⟩
  | cons q qs ih =>
    obtain ⟨t, vs, hfirst, hready, hvs⟩ := decodeTile_group q h
    obtain ⟨tiles, hrest, htiles⟩ := ih hready
    refine ⟨vs :: tiles, ?_, ?_⟩
    · simp only [List.map_cons, decodeTiles, hfirst, hrest]
    · rw [List.map_cons, hvs, htiles, List.map_cons]

/-- Without a palette a conversion starts with SRST alone (48_host_procedures R110 steps 1 and 2). -/
theorem startAndDecode_noPalette (collect : List Access) (norm : List Color) (groups : List (List PlaneByte))
    (s : State) :
    startAndDecode collect none norm groups s = decodeTiles collect groups ⟨Block.reset, [], []⟩ := by
  have hstart : hostCall (startAccesses none norm) s = .ok (⟨Block.reset, [], []⟩, []) :=
    hostCall_of_next (as := [encode .srst]) s.block s.port (issueAll_srst s.block s.port [] []) s.returned
  rw [startAndDecode, hstart]

/-- The sixteen bytes of tile t of a stream, with zeros past its end (20_memory R38). -/
def planarAt (bs : List PlaneByte) (t : Nat) : Planar := Vector.ofFn fun j => bs[16 * t + j.val]?.getD 0x00#8

theorem getElem?_stream {bs : List PlaneByte} {n t j : Nat} (hlen : bs.length = 16 * n) (ht : t < n) (hj : j < 16) :
    bs[16 * t + j]? = some (planarAt bs t)[j] := by
  have hbyte : 16 * t + j < bs.length := by omega
  simp [planarAt, hbyte]

theorem toList_planarAt_zero {bs : List PlaneByte} (h : 16 ≤ bs.length) : (planarAt bs 0).toList = bs.take 16 := by
  refine List.ext_getElem (by simp [h]) fun j hj _ => ?_
  have hj : j < bs.length := by rw [Vector.length_toList] at hj; omega
  simp [planarAt, hj]

theorem planarAt_drop (bs : List PlaneByte) (t : Nat) : planarAt (bs.drop 16) t = planarAt bs (t + 1) := by
  refine congrArg Vector.ofFn (funext fun j => ?_)
  rw [List.getElem?_drop, show 16 + (16 * t + j.val) = 16 * (t + 1) + j.val by omega]

theorem groupsOf_stream {n : Nat} {bs : List PlaneByte} (hlen : bs.length = 16 * n) :
    groupsOf n bs = ((List.range n).map (planarAt bs)).map Vector.toList := by
  induction n generalizing bs with
  | zero => rfl
  | succ n ih =>
    have hrest : (bs.drop 16).length = 16 * n := by rw [List.length_drop]; omega
    rw [groupsOf, ih hrest, List.range_succ_eq_map, List.map_cons, List.map_cons,
      toList_planarAt_zero (by omega), List.map_map, List.map_map, List.map_map]
    simp only [Function.comp_def, planarAt_drop]

/-- A whole stream decodes to the unpacked tiles of its groups, from every state of the block. -/
theorem decodeStream_whole {bs : List PlaneByte} {n : Nat} (hlen : bs.length = 16 * n) (s : State) :
    decodeStream bs s = .ok ((List.range n).map fun t => (unpackTile (planarAt bs t)).toList) := by
  have hmod : bs.length % 16 = 0 := by omega
  have hdiv : bs.length / 16 = n := by omega
  obtain ⟨tiles, hdecode, htiles⟩ :=
    decodeTiles_groups ((List.range n).map (planarAt bs)) (s := ⟨Block.reset, [], []⟩) rfl
  rw [← groupsOf_stream hlen, ← startAndDecode_noPalette rdIdx [] _ s] at hdecode
  simp [decodeStream, hmod, hdiv, hdecode, htiles]

end Sys2Proof.Machine

open Sys2Proof Sys2Proof.Machine

/-- Settles O60: tile t is the unpacked group t, read cell by cell. -/
theorem decodedStreamFollowsBytes : Obligations.DecodedStreamFollowsBytes := by
  intro bs s hmod
  have hlen : bs.length = 16 * (bs.length / 16) := by omega
  refine ⟨_, decodeStream_whole hlen s, by simp, fun t ht =>
    ⟨(unpackTile (planarAt bs t)).toList, by simp [ht], Vector.length_toList, fun k c => ?_⟩⟩
  refine ⟨_, _, (unpackTile (planarAt bs t))[8 * k.val + c.val], getElem?_stream hlen ht (by omega),
    getElem?_stream hlen ht (j := 2 * k.val + 1) (by omega), by simp, toNat_unpackTile_cell _ k c⟩

end

section
/-!
SUPPORT. What SRST does to the state, ready or faulted (44_system R90).
-/

namespace Sys2Proof.Machine

/-- SRST stands behind no gate: it resets the block whatever FCAUSE holds. -/
theorem exec_srst (s : State) : exec .srst s = .next { s with block := Block.reset } :=
  (State.onBlock_eq_next Block.doReset s _).2 (by rw [Block.doReset_eq])

end Sys2Proof.Machine

open Sys2Proof Sys2Proof.Machine

/-- Settles O38: SRST leaves the reset block, every register at the value 10_state R23 lists. -/
theorem srstRestoresResetValues : Obligations.SrstRestoresResetValues :=
  exec_srst

end

section
/-!
SUPPORT. The integer square root and the dimensions of a reconstructed image (45_arithmetic_lanes_control R94,
48_host_procedures R115 and R117).
-/

namespace Sys2Proof.Machine

/-! ### The integer square root (R94) -/

/-- The search down from k stops at the square root, or at k where that is smaller. -/
theorem isqrtUpTo_eq_min (n k : Nat) : isqrtUpTo n k = min k n.sqrt := by
  induction k with
  | zero => rw [isqrtUpTo, Nat.zero_min]
  | succ k ih =>
    simp only [isqrtUpTo, ih, ← Nat.le_sqrt]
    split <;> omega

theorem isqrt_eq_sqrt (n : Nat) : isqrt n = n.sqrt := by
  rw [isqrt, isqrtUpTo_eq_min, Nat.min_eq_right n.sqrt_le_self]

/-! ### The dimensions, by the hints given (R115, R117) -/

theorem dimensions_of_pos (n : Nat) {w h : Int} (hw : 0 < w) (hh : 0 < h) :
    dimensions n (some w) (some h) = .ok (w.toNat, h.toNat) :=
  if_neg (by omega)

theorem dimensions_of_nonpos (n : Nat) {w h : Int} (hbad : w ≤ 0 ∨ h ≤ 0) :
    dimensions n (some w) (some h) = .error .invalidDimension :=
  if_pos hbad

/-- No hint is the same as the inferred side given as both hints. -/
theorem dimensions_none_none (n : Nat) :
    dimensions n none none = dimensions n (some (n.sqrt * 8)) (some (n.sqrt * 8)) := by
  rw [← isqrt_eq_sqrt]
  rfl

/-- A lone hint that is not positive, or that stands beside no tiles, is unresolvable: DIM_INFER is not asked. -/
theorem inferDimensions_of_invalid {n : Nat} {d : Int} (hbad : d ≤ 0 ∨ n = 0) (w h : Option Int) :
    inferDimensions n d w h = none :=
  if_pos hbad.symm

theorem dimensions_width_of_invalid {n : Nat} {d : Int} (hbad : d ≤ 0 ∨ n = 0) :
    dimensions n (some d) none = .error .invalidDimension := by
  rw [dimensions, rawDimensions, inferDimensions_of_invalid hbad]

theorem dimensions_height_of_invalid {n : Nat} {d : Int} (hbad : d ≤ 0 ∨ n = 0) :
    dimensions n none (some d) = .error .invalidDimension := by
  rw [dimensions, rawDimensions, inferDimensions_of_invalid hbad]

/-- With tiles and no hint the image is square, its side eight times the integer square root of the tile count. -/
theorem dimensions_none_none_of_pos {n : Nat} (hn : 0 < n) :
    dimensions n none none = .ok (8 * n.sqrt, 8 * n.sqrt) := by
  have hroot : 0 < n.sqrt := Nat.sqrt_pos.2 hn
  have hside : ((n.sqrt : Int) * 8).toNat = 8 * n.sqrt := by omega
  rw [dimensions_none_none, dimensions_of_pos n (by omega) (by omega), hside]

end Sys2Proof.Machine

open Sys2Proof Sys2Proof.Machine

/-- Settles O55: each clause is the equation of `dimensions` for the hints it gives; the root is `Nat.sqrt`. -/
theorem dimensionsFollowHints : Obligations.DimensionsFollowHints := by
  intro n
  refine ⟨fun w h => dimensions_of_pos n, fun w h => dimensions_of_nonpos n, fun hn => ?tiles, fun hn => ?noTiles,
    fun d hbad => ⟨dimensions_width_of_invalid hbad, dimensions_height_of_invalid hbad⟩⟩
  case tiles => exact ⟨n.sqrt, n.sqrt_le, n.lt_succ_sqrt, dimensions_none_none_of_pos hn⟩
  case noTiles =>
    subst hn
    rw [dimensions_none_none, dimensions_of_nonpos 0 (by simp)]

end

section
/-!
SUPPORT. The host-side functions on sizes, palettes, images and byte lists (48_host_procedures R100 to R107, R120 to
R122), and the idle step (60_exceptions R147).
-/

namespace Sys2Proof.Machine

/-! ### The padding of an axis (R104 to R106) -/

theorem padAxis_of_aligned {size : Nat} (h : size % 8 = 0) : padAxis size = (0, 0) :=
  if_pos h

theorem padAxis_of_le {size : Nat} (h : size ≤ 8) : padAxis size = (0, 0) := by
  rw [padAxis, if_pos h, ite_self]

theorem padAxis_of_unaligned {size : Nat} (h : size % 8 ≠ 0) (hgt : 8 < size) :
    padAxis size = ((8 - size % 8 + 1) / 2, (8 - size % 8) / 2) := by
  rw [padAxis, if_neg h, if_neg (Nat.not_le.2 hgt)]

theorem paddedSize_of_padAxis_zero {size : Nat} (h : padAxis size = (0, 0)) : paddedSize size = size := by
  rw [paddedSize, h, Nat.zero_add, Nat.add_zero]

theorem paddedSize_of_unaligned {size : Nat} (h : size % 8 ≠ 0) (hgt : 8 < size) :
    paddedSize size = 8 * (size / 8 + 1) := by
  rw [paddedSize, padAxis_of_unaligned h hgt]
  omega

/-- An axis is left as it is, or grows to the next multiple of 8. -/
theorem paddedSize_cases (size : Nat) :
    (padAxis size = (0, 0) ∧ (size % 8 = 0 ∨ size ≤ 8) ∧ paddedSize size = size) ∨
    (size % 8 ≠ 0 ∧ 8 < size ∧ paddedSize size = 8 * (size / 8 + 1)) := by
  by_cases h : size % 8 = 0
  · exact .inl ⟨padAxis_of_aligned h, .inl h, paddedSize_of_padAxis_zero (padAxis_of_aligned h)⟩
  by_cases hle : size ≤ 8
  · exact .inl ⟨padAxis_of_le hle, .inr hle, paddedSize_of_padAxis_zero (padAxis_of_le hle)⟩
  · exact .inr ⟨h, Nat.lt_of_not_le hle, paddedSize_of_unaligned h (Nat.lt_of_not_le hle)⟩

theorem padAxis_paddedSize (size : Nat) : padAxis (paddedSize size) = (0, 0) := by
  rcases paddedSize_cases size with ⟨hpad, -, e⟩ | ⟨-, -, e⟩
  · rw [e, hpad]
  · exact padAxis_of_aligned (by omega)

/-! ### The palette (R100 to R103) -/

/-- Filling appends the colours not yet present, as far as there is room: what it appends never matches a later
colour of a list without duplicates. -/
theorem fillPalette_eq {rs : List Color} (hnodup : rs.Nodup) {p : List Color} (h : p.length ≤ 4) :
    fillPalette p rs = p ++ (rs.filter fun r => decide (r ∉ p)).take (4 - p.length) := by
  induction rs generalizing p with
  | nil => simp [fillPalette]
  | cons r rs ih =>
    obtain ⟨hr, hnodup⟩ := List.nodup_cons.1 hnodup
    rw [fillPalette]
    split
    next hfull => simp [hfull]
    next hroom =>
      split
      next hmem => rw [ih hnodup h, List.filter_cons_of_neg (by simpa using hmem)]
      next hnew =>
        have hlen : (p ++ [r]).length = p.length + 1 := by simp
        have hsame : (rs.filter fun x => decide (x ∉ p ++ [r])) = rs.filter fun x => decide (x ∉ p) :=
          List.filter_congr fun x hx => by
            have hxr : x ≠ r := fun e => hr (e ▸ hx)
            simp [hxr]
        have hcount : 4 - p.length = 4 - (p.length + 1) + 1 := by omega
        rw [ih hnodup (by omega), hsame, hlen, List.filter_cons_of_pos (by simpa using hnew), hcount,
          List.take_succ_cons, List.append_assoc, List.singleton_append]

theorem nodup_fillOrder : fillOrder.Nodup := by decide

/-- The ramp has four colours, of which a list of n entries can hold no more than n. -/
theorem four_sub_le_length_filter_fillOrder (p : List Color) :
    4 - p.length ≤ (fillOrder.filter fun r => decide (r ∉ p)).length := by
  have hsub : (fillOrder.filter fun r => decide (r ∈ p)) ⊆ p := fun r hr =>
    of_decide_eq_true (List.mem_filter.1 hr).2
  have hle := (List.subperm_of_subset (nodup_fillOrder.filter _) hsub).length_le
  have hsplit := List.length_eq_length_filter_add (l := fillOrder) fun r => decide (r ∈ p)
  have hfour : fillOrder.length = 4 := rfl
  simp only [decide_not]
  omega

theorem normalisePalette_of_short {given : List Color} (hpos : 1 ≤ given.length) (hle : given.length ≤ 4) :
    normalisePalette (some given) =
      some (given ++ (fillOrder.filter fun r => decide (r ∉ given)).take (4 - given.length)) := by
  have hne : given.length ≠ 0 := by omega
  simp only [normalisePalette, Option.getD_some, if_neg hne, if_pos hle, fillPalette_eq nodup_fillOrder hle]

theorem normalisePalette_of_long {given : List Color} (h : 4 < given.length) : normalisePalette (some given) = none := by
  have hne : given.length ≠ 0 := by omega
  simp only [normalisePalette, Option.getD_some, if_neg hne, if_neg (Nat.not_le.2 h)]

theorem length_of_normalisePalette {given q : List Color} (h : normalisePalette (some given) = some q) :
    q.length = 4 := by
  rcases Nat.eq_zero_or_pos given.length with hzero | hpos
  · obtain rfl := List.length_eq_zero_iff.1 hzero
    exact Option.some.inj h ▸ rfl
  rcases Nat.lt_or_ge 4 given.length with hlong | hle
  · rw [normalisePalette_of_long hlong] at h
    cases h
  · rw [normalisePalette_of_short hpos hle] at h
    have hroom := four_sub_le_length_filter_fillOrder given
    rw [← Option.some.inj h, List.length_append, List.length_take]
    omega

/-! ### The padded map (R107) -/

theorem insideAxis_add {size x : Nat} (h : x < size) : insideAxis size ((padAxis size).1 + x) = true := by
  simp [insideAxis, h]

theorem insideAxis_of_outside {size x : Nat} (h : x < (padAxis size).1 ∨ (padAxis size).1 + size ≤ x) :
    insideAxis size x = false := by
  simp only [insideAxis, Bool.and_eq_false_iff, decide_eq_false_iff_not]
  omega

theorem mapCell_of_outside (img : Image) {x y : Nat}
    (h : insideAxis img.width x = false ∨ insideAxis img.height y = false) : mapCell img x y = none := by
  have hpad : isPadding img.width img.height x y = true := by
    rw [isPadding, Bool.and_eq_false_iff.2 h]
    rfl
  rw [mapCell, if_pos hpad]

theorem mapCell_add (img : Image) {px py : Nat} (hx : px < img.width) (hy : py < img.height) :
    mapCell img ((padAxis img.width).1 + px) ((padAxis img.height).1 + py) = pixelAt img px py := by
  simp [mapCell, isPadding, insideAxis_add hx, insideAxis_add hy]

theorem exists_pixel_of_wellShaped {img : Image} (h : wellShaped img = true) {px py : Nat} (hx : px < img.width)
    (hy : py < img.height) : ∃ row c, img.rows[py]? = some row ∧ row[px]? = some c ∧ pixelAt img px py = some c := by
  simp only [wellShaped, Bool.and_eq_true, beq_iff_eq, List.all_eq_true] at h
  obtain ⟨hheight, hwidth⟩ := h
  have hrow := List.getElem?_eq_getElem (hheight ▸ hy)
  have hpixel := List.getElem?_eq_getElem (hwidth _ (List.mem_of_getElem? hrow) ▸ hx)
  exact ⟨_, _, hrow, hpixel, by rw [pixelAt, hrow]; exact hpixel⟩

/-! ### Widening and narrowing (R120 to R122) -/

theorem narrow_widen (x : List PlaneByte) : narrow (widen x) = some x := by
  induction x with
  | nil => rfl
  | cons byte x ih => rw [widen, narrow, ih, Option.map_some]

/-- Widening gives a buffer back exactly where the two bytes of each of its pairs are equal. -/
theorem widen_eq_iff_of_narrow {b n : List PlaneByte} (h : narrow b = some n) :
    widen n = b ↔ ∀ m, 2 * m + 1 < b.length → b[2 * m]? = b[2 * m + 1]? := by
  induction b using narrow.induct generalizing n with
  | case1 =>
    cases h
    simp [widen]
  | case2 => cases h
  | case3 low high rest ih =>
    obtain ⟨n', hrest, rfl⟩ := Option.map_eq_some_iff.1 h
    have hshift : ∀ m, (2 * (m + 1) + 1 < (low :: high :: rest).length →
        (low :: high :: rest)[2 * (m + 1)]? = (low :: high :: rest)[2 * (m + 1) + 1]?) ↔
        (2 * m + 1 < rest.length → rest[2 * m]? = rest[2 * m + 1]?) :=
      fun m => imp_congr (by simp only [List.length_cons]; omega) Iff.rfl
    rw [widen, ← Nat.and_forall_add_one, List.cons.injEq, List.cons.injEq, ih hrest, forall_congr' hshift]
    simp

end Sys2Proof.Machine

open Sys2Proof Sys2Proof.Machine

/-- Settles O8: the fetch finds the port empty. -/
theorem idleStepKeepsState : Obligations.IdleStepKeepsState := by
  intro s h
  rw [step, fetch_idle h]

/-- Settles O50: the fill appends the missing ramp colours, and there are always enough of them. -/
theorem normalisedPaletteHasFourEntries : Obligations.NormalisedPaletteHasFourEntries :=
  ⟨rfl, fun _ => ⟨fun h => h ▸ rfl, normalisePalette_of_short, normalisePalette_of_long,
    fun _ => length_of_normalisePalette⟩⟩

/-- Settles O51: an axis stays as it is or grows to the next multiple of 8. -/
theorem paddingAlignsEachAxis : Obligations.PaddingAlignsEachAxis := by
  refine fun size => ⟨padAxis_of_aligned, padAxis_of_le, fun h hgt => ?total, fun hge => ?aligned,
    padAxis_paddedSize size⟩
  case total =>
    rw [padAxis_of_unaligned h hgt]
    dsimp only
    omega
  case aligned =>
    rcases paddedSize_cases size with ⟨-, hstay, e⟩ | ⟨h, -, e⟩ <;> omega

/-- Settles O52: outside either axis is padding, inside both the padding is taken off the coordinates again. -/
theorem mapCellIsPaddingOrPixel : Obligations.MapCellIsPaddingOrPixel := by
  refine fun img x y => ⟨fun h => ?padding, fun px py hx hy hshape => ?pixel⟩
  case padding =>
    refine mapCell_of_outside img ?_
    rcases h with h | h | h | h
    · exact .inl (insideAxis_of_outside (.inl h))
    · exact .inl (insideAxis_of_outside (.inr h))
    · exact .inr (insideAxis_of_outside (.inl h))
    · exact .inr (insideAxis_of_outside (.inr h))
  case pixel =>
    obtain ⟨row, c, hrow, hc, hpixel⟩ := exists_pixel_of_wellShaped hshape hx hy
    exact ⟨row, c, hrow, hc, (mapCell_add img hx hy).trans hpixel⟩

/-- Settles O53: both directions go pair by pair. -/
theorem narrowUndoesWiden : Obligations.NarrowUndoesWiden :=
  ⟨narrow_widen, fun _ _ => widen_eq_iff_of_narrow⟩

end

section
/-!
SUPPORT. Encoding with faults: a tile that leaves the block faulted fails, the first unsupported pixel decides how, and
every tile that does not fail gives sixteen bytes (48_host_procedures R110, R111, R124).
-/

namespace Sys2Proof.Machine

/-! ### The outcome of a tile -/

/-- A tile whose accesses leave the block faulted fails as the fault registers say. -/
theorem encodeTile_of_faulted (o : TileOrigin) {cells : List (Option Color)} {s : State}
    (h : (loadTile cells s.block).fcause ≠ 0#2) :
    encodeTile o cells s =
      .error (translateFault ((loadTile cells s.block).fcause.setWidth 32) (loadTile cells s.block).fval
        ((loadTile cells s.block).fpos.setWidth 32) o) := by
  simp only [encodeTile, hostCall_tileAccesses, checkFault_faulted _ _ _ o h]

theorem length_of_encodeTile {o : TileOrigin} {cells : List (Option Color)} {s t : State} {bytes : List PlaneByte}
    (h : encodeTile o cells s = .ok (t, bytes)) : bytes.length = 16 := by
  by_cases hready : (loadTile cells s.block).fcause = 0#2
  · obtain ⟨rs, e⟩ := encodeTile_of_ready o hready
    cases e.symm.trans h
    exact Vector.length_toList
  · cases (encodeTile_of_faulted o hready).symm.trans h

/-! ### Tiles and images -/

theorem length_of_encodeTiles {img : Image} {ts : List (Nat × Nat)} {s : State} {out : List PlaneByte}
    (h : encodeTiles img ts s = .ok out) : out.length = 16 * ts.length := by
  induction ts generalizing s out with
  | nil =>
    cases h
    rfl
  | cons x ts ih =>
    obtain ⟨tr, tc⟩ := x
    rw [encodeTiles] at h
    split at h
    next => cases h
    next t bytes hfirst =>
      split at h
      next => cases h
      next rest hrest =>
        cases h
        rw [List.length_append, length_of_encodeTile hfirst, ih hrest, List.length_cons]
        omega

theorem length_gridTiles (rows cols : Nat) : (gridTiles rows cols).length = cols * rows := by
  simp [gridTiles, Nat.mul_comm]

/-- An encode that succeeds has passed the test of the padded dimensions and encoded every tile of the grid. -/
theorem encodeImage_ok {img : Image} {s : State} {out : List PlaneByte} (h : encodeImage img s = .ok out) :
    paddedSize img.width % 8 = 0 ∧ paddedSize img.height % 8 = 0 ∧
    ∃ t, encodeTiles img (gridTiles (paddedSize img.height / 8) (paddedSize img.width / 8)) t = .ok out := by
  unfold encodeImage at h
  split at h
  · cases h
  split at h
  · cases h
  split at h
  · cases h
  split at h
  · cases h
  next haligned =>
    split at h
    · cases h
    next t _ _ => exact ⟨by omega, by omega, t, h⟩

/-! ### The first unsupported pixel of a tile -/

theorem cellEffect_unsupported (p : Pos) {c : Color} {b : Block} (h : NotInPalette b c) :
    cellEffect p (some c) b = (b.setColor c).raiseFault 1#2 c p :=
  quantCell_of_notInPalette (b := b.setColor c) p h

theorem loadCells_append (xs ys : List (Pos × Option Color)) (b : Block) :
    loadCells (xs ++ ys) b = loadCells ys (loadCells xs b) :=
  List.foldl_append

/-- A faulted block ignores the cells that follow (40_register_access R65, R69). -/
theorem loadCells_of_faulted (cells : List (Pos × Option Color)) {b : Block} (h : b.fcause ≠ 0#2) :
    loadCells cells b = b := by
  induction cells with
  | nil => rfl
  | cons x cells ih => rw [loadCells, List.foldl_cons, Block.whenReady_of_faulted _ h, ← loadCells, ih]

/-- After supported cells the first unsupported one faults, and the cells after it leave the fault as it is. -/
theorem loadCells_unsupported {xs : List (Pos × Option Color)} (hnodup : (xs.map Prod.fst).Nodup) {b : Block}
    (hb : b.fcause = 0#2) (hxs : ∀ x ∈ xs, ∀ c, x.2 = some c → ∃ j, b.palAt j = c) (p : Pos) {colour : Color}
    (hcolour : NotInPalette b colour) (ys : List (Pos × Option Color)) :
    ∃ b' : Block, loadCells (xs ++ (p, some colour) :: ys) b = b'.raiseFault 1#2 colour p := by
  obtain ⟨hready, hpal, -, -⟩ := loadCells_supported hnodup hb hxs
  have hmissing : NotInPalette (loadCells xs b) colour := by simpa only [NotInPalette, Block.palAt, hpal] using hcolour
  refine ⟨(loadCells xs b).setColor colour, ?_⟩
  rw [loadCells_append, loadCells_cons_ready p _ ys hready, cellEffect_unsupported p hmissing]
  exact loadCells_of_faulted ys (by simp)

/-- The cells before position p stand in the tile before it. -/
theorem exists_of_mem_take_tilePositions {cells : List (Option Color)} {p : Nat} {x : Pos × Option Color}
    (h : x ∈ (tilePositions cells).take p) : ∃ q, q < p ∧ cells[q]? = some x.2 := by
  obtain ⟨q, hq, e⟩ := List.mem_take_iff_getElem.1 h
  obtain ⟨-, hcell⟩ := List.getElem?_zip_eq_some.1 (List.getElem?_eq_some_iff.2 ⟨_, e⟩)
  exact ⟨q, by omega, hcell⟩

theorem tilePositions_split {cells : List (Option Color)} {p : Nat} {cell : Option Color} (hp : p < 64)
    (h : cells[p]? = some cell) :
    tilePositions cells =
      (tilePositions cells).take p ++ (BitVec.ofNat 6 p, cell) :: (tilePositions cells).drop (p + 1) := by
  have hentry : (tilePositions cells)[p]? = some (BitVec.ofNat 6 p, cell) :=
    List.getElem?_zip_eq_some.2 ⟨getElem?_countTo hp, h⟩
  obtain ⟨hlt, e⟩ := List.getElem?_eq_some_iff.1 hentry
  rw [← e, ← List.drop_eq_getElem_cons hlt, List.take_append_drop]

/-- The first unsupported pixel is what the tile's fault records. -/
theorem loadTile_unsupported {cells : List (Option Color)} {b : Block} {p : Nat} {colour : Color} (hb : b.fcause = 0#2)
    (hlen : cells.length = 64) (hp : p < 64) (hcell : cells[p]? = some (some colour)) (hcolour : NotInPalette b colour)
    (hfirst : ∀ q c, q < p → cells[q]? = some (some c) → ∃ j, b.palAt j = c) :
    ∃ b' : Block, loadTile cells b = b'.raiseFault 1#2 colour (BitVec.ofNat 6 p) := by
  have hnodup : (((tilePositions cells).take p).map Prod.fst).Nodup :=
    (nodup_tilePositions hlen).sublist ((List.take_sublist p _).map _)
  have hxs : ∀ x ∈ (tilePositions cells).take p, ∀ c, x.2 = some c → ∃ j, b.palAt j = c := by
    intro x hx c e
    obtain ⟨q, hq, hx⟩ := exists_of_mem_take_tilePositions hx
    exact hfirst q c hq (e ▸ hx)
  obtain ⟨b', e⟩ := loadCells_unsupported hnodup hb hxs (BitVec.ofNat 6 p) hcolour ((tilePositions cells).drop (p + 1))
  rw [← tilePositions_split hp hcell] at e
  exact ⟨b', by rw [loadTile, e, Block.whenReady_of_faulted _ (by simp)]⟩

/-- An UnsupportedColor fault is reported with the colour and the position it records (R124). -/
theorem translateFault_unsupported (b : Block) (c : Color) (p : Pos) (o : TileOrigin) :
    translateFault ((b.raiseFault 1#2 c p).fcause.setWidth 32) (b.raiseFault 1#2 c p).fval
      ((b.raiseFault 1#2 c p).fpos.setWidth 32) o =
      .unsupportedColor c (reportCoords Config.coordOrigin o p.toNat) := by
  have hpos : (p.setWidth 32).toNat = p.toNat := BitVec.toNat_setWidth_of_le (by decide)
  rw [← hpos]
  exact if_pos rfl

end Sys2Proof.Machine

open Sys2Proof Sys2Proof.Machine

/-- Settles O54: the tiles that make up the output are those of the padded grid, sixteen bytes each. -/
theorem encodedImageHasSixteenBytesPerTile : Obligations.EncodedImageHasSixteenBytesPerTile := by
  intro img s out h
  obtain ⟨hwidth, hheight, t, htiles⟩ := encodeImage_ok h
  exact ⟨by rw [length_of_encodeTiles htiles, length_gridTiles], hwidth, hheight⟩

/-- Settles O58: the fault of the first unsupported pixel survives to the check, which reports its registers. -/
theorem unsupportedPixelFailsTile : Obligations.UnsupportedPixelFailsTile := by
  intro o cells s p colour hs hlen hcell hcolour hfirst
  have hp : p < 64 := hlen ▸ (List.getElem?_eq_some_iff.1 hcell).1
  obtain ⟨b', e⟩ := loadTile_unsupported hs hlen hp hcell hcolour hfirst
  rw [encodeTile_of_faulted o (by simp [e]), e, translateFault_unsupported, BitVec.toNat_ofNat, Nat.mod_eq_of_lt hp]

end

section
/-!
SUPPORT. Decoding a stream with a trailing partial tile: the block finds it, because every group starts with no byte
supplied (48_host_procedures R112, 43_unpacker R85).
-/

namespace Sys2Proof.Machine

/-! ### A group of fewer than sixteen bytes -/

theorem fifteen_notMem_groupBytes {group : List PlaneByte} (h : group.length < 16) :
    15#4 ∉ (groupBytes group).map Prod.fst := by
  intro hmem
  obtain ⟨i, hi, e⟩ := List.mem_iff_getElem.1 hmem
  have hi : i < group.length := by simp [groupBytes] at hi; omega
  have e : BitVec.ofNat 4 i = 15#4 := by simpa [groupBytes, countTo] using e
  have e := congrArg BitVec.toNat e
  simp only [BitVec.toNat_ofNat] at e
  omega

/-- A partial group on a block with no byte supplied leaves PLN[15] missing. -/
theorem supplyBytes_partial_pvalid {group : List PlaneByte} (h : group.length < 16) {b : Block}
    (hb : b.pvalid = 0x0000#16) : (supplyBytes (groupBytes group) b).pvalid ≠ 0xFFFF#16 := by
  intro hall
  have hbit := (getLsbD_supplyBytes_pvalid (groupBytes group) b 15#4).1 (by rw [hall]; rfl)
  rcases hbit with hbit | hmem
  · rw [hb] at hbit
    cases hbit
  · exact fifteen_notMem_groupBytes h hmem

/-- A partial group on a ready block with no byte supplied is MalformedBufferError. -/
theorem decodeTile_partial {group : List PlaneByte} (h : group.length < 16) {s : State} (hs : s.block.fcause = 0#2)
    (hnone : s.block.pvalid = 0x0000#16) (collect : List Access) :
    decodeTile collect group s = .error .malformedBuffer := by
  simp only [decodeTile, hostCall_group group hs, unpackBlock_missing (supplyBytes_partial_pvalid h hnone)]
  rw [checkFault_faulted _ _ _ _ (by simp)]
  rfl

/-! ### Whole groups before it -/

/-- A whole group uses up the bytes supplied: the next group starts with none. -/
theorem pvalid_of_decodeTile_group {q : Planar} {s t : State} {vs : List PortWord} (h : s.block.fcause = 0#2)
    (hdecode : decodeTile rdIdx q.toList s = .ok (t, vs)) : t.block.pvalid = 0x0000#16 := by
  have hpvalid := supplyBytes_group_pvalid q s.block
  have hready := (unpackBlock_fcause_of_complete hpvalid).trans ((supplyBytes_fcause _ _).trans h)
  obtain ⟨rs, vs', e, -⟩ := decodeTile_of_ready h hready
  cases e.symm.trans hdecode
  rw [unpackBlock_complete hpvalid]

/-- Whole groups decode until the partial one, which fails the conversion. -/
theorem decodeTiles_partial {n : Nat} {bs : List PlaneByte} (hge : 16 * n ≤ bs.length) (hlt : bs.length < 16 * (n + 1))
    {s : State} (hs : s.block.fcause = 0#2) (hnone : s.block.pvalid = 0x0000#16) :
    decodeTiles rdIdx (groupsOf (n + 1) bs) s = .error .malformedBuffer := by
  induction n generalizing bs s with
  | zero =>
    have hshort : (bs.take 16).length < 16 := by rw [List.length_take]; omega
    rw [groupsOf, decodeTiles, decodeTile_partial hshort hs hnone]
  | succ n ih =>
    obtain ⟨t, vs, hfirst, hready, -⟩ := decodeTile_group (planarAt bs 0) hs
    have hnone := pvalid_of_decodeTile_group hs hfirst
    rw [toList_planarAt_zero (by omega)] at hfirst
    have hrest := ih (bs := bs.drop 16) (by rw [List.length_drop]; omega) (by rw [List.length_drop]; omega) hready hnone
    rw [groupsOf, decodeTiles, hfirst]
    simp only [hrest]

/-! ### The two ways -/

theorem decodeStream_partial {bs : List PlaneByte} (h : bs.length % 16 ≠ 0) (s : State) :
    decodeStream bs s = .error .malformedBuffer :=
  if_pos h

theorem feedStream_partial {bs : List PlaneByte} (h : bs.length % 16 ≠ 0) (s : State) :
    feedStream bs s = .error .malformedBuffer := by
  have hgroups : (bs.length + 15) / 16 = bs.length / 16 + 1 := by omega
  have hfail := decodeTiles_partial (n := bs.length / 16) (bs := bs) (by omega) (by omega)
    (s := ⟨Block.reset, [], []⟩) rfl rfl
  rw [feedStream, hgroups, startAndDecode_noPalette, hfail]

theorem feedStream_whole {bs : List PlaneByte} (h : bs.length % 16 = 0) (s : State) :
    feedStream bs s = decodeStream bs s := by
  have hgroups : (bs.length + 15) / 16 = bs.length / 16 := by omega
  rw [feedStream, hgroups, decodeStream, if_neg (not_not.2 h)]

end Sys2Proof.Machine

open Sys2Proof Sys2Proof.Machine

/-- Settles O59: a partial stream fails both ways, and on a whole one the two ways feed the same groups. -/
theorem partialStreamFailsBothWays : Obligations.PartialStreamFailsBothWays := by
  refine fun bs s => ⟨fun h => ⟨decodeStream_partial h s, feedStream_partial h s⟩, ?_⟩
  by_cases h : bs.length % 16 = 0
  · exact (feedStream_whole h s).symm
  · rw [decodeStream_partial h, feedStream_partial h]

end

section
/-!
SUPPORT. Reconstruction: the pixels of an assembled row, and assembly with a tile missing (48_host_procedures R118,
R119).
-/

namespace Sys2Proof.Machine

/-! ### Strips -/

section
variable {α : Type} (tiles : List (List α)) (strip : Nat)

theorem stripsFrom_succ_of_some {first : Nat} {tile : List α} (h : tiles[first]? = some tile) {n : Nat} {row : List α}
    (hrest : stripsFrom tiles strip (first + 1) n = .ok row) :
    stripsFrom tiles strip first (n + 1) = .ok (stripOf tile strip ++ row) := by
  rw [stripsFrom, h]
  simp only [hrest]

/-- A row of n tiles holds cell `8*strip + X mod 8` of tile `first + X div 8` at each X below 8*n. -/
def RowOfStrips (first n : Nat) (row : List α) : Prop :=
  row.length = 8 * n ∧ ∀ x, x < 8 * n → ∃ tile, tiles[first + x / 8]? = some tile ∧ row[x]? = tile[strip * 8 + x % 8]?

variable {tiles strip}

theorem length_stripOf {tile : List α} (h : tile.length = 64) (hstrip : strip < 8) : (stripOf tile strip).length = 8 := by
  rw [stripOf, List.length_take, List.length_drop]
  omega

theorem getElem?_stripOf (tile : List α) {x : Nat} (h : x < 8) : (stripOf tile strip)[x]? = tile[strip * 8 + x]? := by
  rw [stripOf, List.getElem?_take_of_lt h, List.getElem?_drop]

theorem RowOfStrips.cons {first n : Nat} {tile row : List α} (hrow : RowOfStrips tiles strip (first + 1) n row)
    (htile : tiles[first]? = some tile) (hlen : (stripOf tile strip).length = 8) :
    RowOfStrips tiles strip first (n + 1) (stripOf tile strip ++ row) := by
  obtain ⟨hrowlen, hpixel⟩ := hrow
  refine ⟨by rw [List.length_append]; omega, fun x hx => ?_⟩
  rcases Nat.lt_or_ge x 8 with hfirst | hrest
  · refine ⟨tile, by rwa [Nat.div_eq_of_lt hfirst], ?_⟩
    rw [List.getElem?_append_left (by omega), getElem?_stripOf tile hfirst, Nat.mod_eq_of_lt hfirst]
  · obtain ⟨other, hother, e⟩ := hpixel (x - 8) (by omega)
    refine ⟨other, ?_, ?_⟩
    · rwa [show first + 1 + (x - 8) / 8 = first + x / 8 by omega] at hother
    · rw [List.getElem?_append_right (by omega), hlen, e, show (x - 8) % 8 = x % 8 by omega]

/-- With every tile there the strips make a row. -/
theorem stripsFrom_of_present (htiles : ∀ x ∈ tiles, x.length = 64) (hstrip : strip < 8) {first n : Nat}
    (h : ∀ i, i < n → first + i < tiles.length) :
    ∃ row, stripsFrom tiles strip first n = .ok row ∧ RowOfStrips tiles strip first n row := by
  induction n generalizing first with
  | zero => exact ⟨[], rfl, rfl, nofun⟩
  | succ n ih =>
    have htile := List.getElem?_eq_getElem (h 0 (by omega))
    obtain ⟨row, e, hrow⟩ := ih (first := first + 1) fun i hi => by have := h (i + 1) (by omega); omega
    exact ⟨_, stripsFrom_succ_of_some tiles strip htile e,
      hrow.cons htile (length_stripOf (htiles _ (List.mem_of_getElem? htile)) hstrip)⟩

/-- With a tile missing there is no row (90_conflicts C3). -/
theorem stripsFrom_of_missing {first n i : Nat} (hi : i < n) (h : tiles.length ≤ first + i) :
    stripsFrom tiles strip first n = .error .malformedBuffer := by
  induction n generalizing first i with
  | zero => omega
  | succ n ih =>
    rw [stripsFrom]
    split
    next => rfl
    next tile htile =>
      have hfirst := (List.getElem?_eq_some_iff.1 htile).1
      rw [ih (i := i - 1) (by omega) (by omega)]

/-! ### Rows -/

/-- Every tile that row y takes a strip of is there (R119). -/
def RowTilesPresent (tiles : List (List α)) (width y : Nat) : Prop :=
  ∀ i, i < width / 8 → y / 8 * (width / 8) + i < tiles.length

/-- Row y holds cell `8*(y mod 8) + X mod 8` of tile `(y div 8)*(width div 8) + X div 8` at each X (R118). -/
abbrev RowFollowsFormula (tiles : List (List α)) (width y : Nat) (row : List α) : Prop :=
  RowOfStrips tiles (y % 8) (y / 8 * (width / 8)) (width / 8) row

variable {width : Nat}

theorem not_rowTilesPresent_iff {y : Nat} :
    ¬RowTilesPresent tiles width y ↔ ∃ x, x < 8 * (width / 8) ∧ tiles.length ≤ y / 8 * (width / 8) + x / 8 := by
  simp only [RowTilesPresent, not_forall, not_lt]
  constructor
  · rintro ⟨i, hi, hmissing⟩
    exact ⟨8 * i, by omega, by rwa [Nat.mul_div_cancel_left i (by decide)]⟩
  · rintro ⟨x, hx, hmissing⟩
    exact ⟨x / 8, by omega, hmissing⟩

theorem rowOf_of_present (htiles : ∀ x ∈ tiles, x.length = 64) {y : Nat} (h : RowTilesPresent tiles width y) :
    ∃ row, rowOf tiles width y = .ok row ∧ RowFollowsFormula tiles width y row :=
  stripsFrom_of_present htiles (Nat.mod_lt y (by decide)) h

theorem rowOf_of_missing {y : Nat} (h : ¬RowTilesPresent tiles width y) :
    rowOf tiles width y = .error .malformedBuffer := by
  simp only [RowTilesPresent, not_forall, not_lt] at h
  obtain ⟨i, hi, hmissing⟩ := h
  exact stripsFrom_of_missing hi hmissing

/-- With the tiles of every row there, all rows are assembled, in order. -/
theorem rowsFrom_of_present (htiles : ∀ x ∈ tiles, x.length = 64) {y n : Nat}
    (h : ∀ k, k < n → RowTilesPresent tiles width (y + k)) :
    ∃ rows, rowsFrom tiles width y n = .ok rows ∧ rows.length = n ∧
      ∀ k, k < n → ∃ row, rows[k]? = some row ∧ RowFollowsFormula tiles width (y + k) row := by
  induction n generalizing y with
  | zero => exact ⟨[], rfl, rfl, nofun⟩
  | succ n ih =>
    have hnext : ∀ k, y + 1 + k = y + (k + 1) := fun k => by omega
    obtain ⟨row, efirst, hrow⟩ := rowOf_of_present htiles (h 0 (by omega))
    obtain ⟨rows, erest, hlen, hrows⟩ := ih (y := y + 1) fun k hk => hnext k ▸ h (k + 1) (by omega)
    refine ⟨row :: rows, ?_, by rw [List.length_cons, hlen], fun k hk => ?_⟩
    · rw [Nat.add_zero] at efirst
      simp only [rowsFrom, efirst, erest]
    · cases k with
      | zero => exact ⟨row, rfl, hrow⟩
      | succ k => exact hnext k ▸ hrows k (by omega)

/-- A tile missing in any row fails them all. -/
theorem rowsFrom_of_missing (htiles : ∀ x ∈ tiles, x.length = 64) {y n k : Nat} (hk : k < n)
    (h : ¬RowTilesPresent tiles width (y + k)) : rowsFrom tiles width y n = .error .malformedBuffer := by
  induction n generalizing y k with
  | zero => omega
  | succ n ih =>
    rw [rowsFrom]
    by_cases hfirst : RowTilesPresent tiles width y
    · obtain ⟨row, efirst, -⟩ := rowOf_of_present htiles hfirst
      cases k with
      | zero => exact absurd hfirst h
      | succ k => simp only [efirst, ih (y := y + 1) (k := k) (by omega) (by rwa [Nat.add_right_comm])]
    · rw [rowOf_of_missing hfirst]

end

end Sys2Proof.Machine

open Sys2Proof Sys2Proof.Machine

/-- Settles O56: either the tiles of every row are there, and each row follows its formula, or one is missing. -/
theorem reconstructedPixelFollowsFormula : Obligations.ReconstructedPixelFollowsFormula := by
  intro tiles width height htiles
  by_cases hall : ∀ y, y < height → RowTilesPresent tiles width y
  · obtain ⟨rows, e, hlen, hrows⟩ := rowsFrom_of_present htiles (y := 0) fun k hk => (Nat.zero_add k).symm ▸ hall k hk
    refine ⟨fun rows' e' => ?rows, ⟨fun herror => ?error, fun ⟨y, x, hy, hmissing⟩ => ?missing⟩, .inl ⟨rows, e⟩⟩
    case rows =>
      cases e.symm.trans e'
      refine ⟨hlen, fun y hy => ?_⟩
      have hrow := hrows y hy
      rwa [Nat.zero_add] at hrow
    case error => cases e.symm.trans herror
    case missing => exact absurd (hall y hy) (not_rowTilesPresent_iff.2 ⟨x, hmissing⟩)
  · push Not at hall
    obtain ⟨y, hy, hrow⟩ := hall
    have e := rowsFrom_of_missing htiles (y := 0) hy ((Nat.zero_add y).symm ▸ hrow)
    obtain ⟨x, hmissing⟩ := not_rowTilesPresent_iff.1 hrow
    exact ⟨fun _ e' => absurd (e.symm.trans e') nofun, iff_of_true e ⟨y, x, hy, hmissing⟩, .inr e⟩

end

section
/-!
SUPPORT. The faulted state: what leaves it, what raises a fault, and that a fault writes its record and nothing else
(60_exceptions R130, R137 to R140).
-/

namespace Sys2Proof.Machine

/-! ### Instructions on a faulted block -/

/-- On a faulted block the gate is shut: only a read and SRST change the state (60_exceptions R138). -/
theorem exec_next_eq_of_faulted {i : Instr} {s t : State} (hs : s.block.fcause ≠ 0#2) (h : exec i s = .next t)
    (hsrst : canonicalInstr i ≠ .srst) (hrd : ∀ rn, i ≠ .rd rn) : t = s := by
  cases exec_next_cases h with
  | rd r hi => exact absurd hi (hrd _)
  | srst hi => exact absurd hi hsrst
  | gated f => rw [Block.whenReady_of_faulted f hs]

theorem exec_next_block_of_faulted {i : Instr} {s t : State} (hs : s.block.fcause ≠ 0#2) (h : exec i s = .next t) :
    t.block = s.block ∨ (canonicalInstr i = .srst ∧ t.block = Block.reset) := by
  rcases exec_next_block_cases h with e | hreset | ⟨hready, -⟩
  · exact .inl e
  · exact .inr hreset
  · exact absurd hready hs

theorem exec_of_canonicalInstr_srst {i : Instr} (h : WellFormed i) (hi : canonicalInstr i = .srst) (s : State) :
    exec i s = .next { s with block := Block.reset } := by
  rw [← canonicalInstrHasSameEffect i s h, hi, exec_srst]

/-! ### Steps from a faulted block -/

/-- The one access that decodes to SRST is the write of its word to CMD. -/
theorem eq_of_decode_srst {a : Access} {i : Instr} (hd : decode a = .ok i) (hi : canonicalInstr i = .srst) :
    a = .write 0x00#7 0x3F#32 := by
  rw [← encode_of_decode hd, ← encode_canonicalInstr (wellFormed_of_decode hd), hi]
  rfl

/-- All a step can do to a faulted block: keep it, or reset it by one of the two events that do (60_exceptions R139). -/
theorem step_next_block_of_faulted {s t : State} (hs : s.block.fcause ≠ 0#2) (h : step s = .next t) :
    t.block = s.block ∨ (t.block = Block.reset ∧
      (s.port = .resetInput :: t.port ∨ s.port = .access (.write 0x00#7 0x3F#32) :: t.port)) := by
  cases step_next_cases h with
  | idle => exact .inl rfl
  | reset rest hp => exact .inr ⟨rfl, .inl hp⟩
  | instr a rest i _ hp hd hx =>
    rcases exec_next_block_of_faulted (s := { s with port := rest }) hs hx with e | ⟨hi, e⟩
    · exact .inl e
    · obtain rfl := eq_of_decode_srst hd hi
      exact .inr ⟨e, .inr (by rw [exec_next_port hx, hp])⟩

theorem step_srst {s : State} {rest : List HostEvent} (hp : s.port = .access (.write 0x00#7 0x3F#32) :: rest) :
    step s = .next { s with block := Block.reset, port := rest } := by
  rw [step_instr hp (decode_commandAccess (w := 0x3F#8) rfl), exec_srst]

/-! ### Fault entry -/

/-- An instruction that leaves a ready block faulted has raised one of the faults and made no other write
(60_exceptions R137). -/
theorem exists_raisedFault_of_exec_next {i : Instr} {s t : State} (hs : s.block.fcause = 0#2)
    (h : exec i s = .next t) (ht : t.block.fcause ≠ 0#2) :
    ∃ cause val pos, RaisedFault i s.block cause val pos ∧
      t = { s with block := s.block.raiseFault cause val pos } := by
  cases exec_next_cases h with
  | rd => exact absurd hs ht
  | srst => exact absurd rfl ht
  | gated f g =>
    rw [Block.whenReady_of_ready f hs] at ht ⊢
    rcases (g.blockEffect s.block).record_cases with ⟨hc, -, -⟩ | ⟨cause, val, pos, hraised, e⟩
    · exact absurd (hc.trans hs) ht
    · exact ⟨cause, val, pos, hraised, by rw [e]⟩

end Sys2Proof.Machine

open Sys2Proof Sys2Proof.Machine

/-- Settles O39: SRST and RD stand behind no gate, and the gate ignores everything else. -/
theorem faultedBlockOnlyPerformsSrst : Obligations.FaultedBlockOnlyPerformsSrst := by
  refine fun s i hs hwf => ⟨fun hi => exec_of_canonicalInstr_srst hwf hi s, fun rn hi => ?read,
    fun hsrst hrd => ?ignored, hs⟩
  case read =>
    subst hi
    obtain ⟨r, rfl⟩ := wellFormed_rd.1 hwf
    exact ⟨r, regOfNum_numOfReg r, exec_rd r s⟩
  case ignored =>
    obtain ⟨t, ht⟩ := exec_next_of_wellFormed hwf s
    rw [ht, exec_next_eq_of_faulted hs ht hsrst hrd]

/-- Settles O40: a step from a faulted block keeps it faulted unless it consumes one of the two resets. -/
theorem onlyResetLeavesFaultedState : Obligations.OnlyResetLeavesFaultedState := by
  refine fun s hs => ⟨fun t h hready => ?leaves, fun rest hp => ?restores⟩
  case leaves =>
    rcases step_next_block_of_faulted hs h with e | ⟨-, hp⟩
    · exact absurd (e ▸ hready) hs
    · exact hp
  case restores => exact hp.elim (resetInputResetsBlock s rest) step_srst

/-- Settles O41: from a faulted block a step keeps the block or resets it. -/
theorem faultRecordIsNeverOverwritten : Obligations.FaultRecordIsNeverOverwritten :=
  fun _ _ hs h => (step_next_block_of_faulted hs h).imp_right And.left

/-- Settles O42: a ready block turns faulted by a raised fault alone, and on a faulted block all but SRST keeps the
block. -/
theorem onlyThreeFaultsAndPrecise : Obligations.OnlyThreeFaultsAndPrecise := by
  refine fun s => ⟨fun hs i t h ht => ?causes, fun hs => ⟨fun p => (quantWritesLowestMatchOrFaults s p hs).2.1,
    exec_unpack_missing hs, fun w hw => (reservedWordRaisesIllegalCommand.2 s w hw).1 hs⟩,
    fun hs i t h ht => ?faulted⟩
  case causes =>
    obtain ⟨cause, val, pos, hraised, rfl⟩ := exists_raisedFault_of_exec_next hs h ht
    cases hraised with
    | unsupportedColor _ hi hn => exact .inl ⟨_, hi, hn, rfl⟩
    | malformedBuffer hi hm => exact .inr (.inl ⟨hi, hm, rfl⟩)
    | illegalCommand w hi hw => exact .inr (.inr ⟨w, hi, hw, rfl⟩)
  case faulted =>
    rcases exec_next_block_of_faulted hs h with e | ⟨-, e⟩
    · exact e
    · exact absurd (congrArg Block.fcause e) ht

end
